-- ==== Sys2Proof/Word.lean ====
section
/-! DEFINITION. The machine word and the character byte of the Misim ABS-M core. -/
namespace Sys2Proof

/-- A machine word: W = 32 (00_scope.md R7). All arithmetic is modulo 2^32 (R11). -/
abbrev Word := BitVec 32

/-- A character of the console or of the binary file: bits [7:0] of a word (20_memory.md R46). -/
abbrev Byte := BitVec 8

end Sys2Proof
end

