-- ==== Sys2Proof/Syntax.lean ====
section
/-! DEFINITION. The instructions as syntax: one constructor per row of the opcode table
(30_encoding.md R75), and the names of types and codes (R64, R65). -/
namespace Sys2Proof

/-- A register index: a 4-bit field, so 0 to 15 (10_state.md R20, R22). -/
abbrev Reg := Fin 16

/-- The 12-bit immediate, used unsigned (30_encoding.md R69). -/
abbrev Imm := BitVec 12

/-- SP is register 13, LR 14, PC 15 (10_state.md R21). -/
abbrev spReg : Reg := 13
abbrev lrReg : Reg := 14
abbrev pcReg : Reg := 15

/-- The five instruction shapes (30_encoding.md R64). -/
inductive OpType where
  | it | rt | ut | st | jt
deriving DecidableEq, Repr

/-- The 23 instruction opcodes, in the order of the table of 30_encoding.md R65. -/
inductive OpCode where
  | jmp | jz | jn | jc | jv | jzn
  | add | umul | udiv | umol
  | and | orr | xor | shl | shr | rtl | rtr | not
  | ldr | str | push | pop
  | syscall
deriving DecidableEq, Repr

/-- The instructions: the 34 legal (type, code) pairs of 30_encoding.md R68 with the fields each uses
(R66), and the terminator (R70). A field a format ignores is not held (R67). -/
inductive Instr where
  | add (rd rm rn : Reg)
  | addi (rd rm : Reg) (imm : Imm)
  | umul (rd rm rn : Reg)
  | umuli (rd rm : Reg) (imm : Imm)
  | udiv (rd rm rn : Reg)
  | udivi (rd rm : Reg) (imm : Imm)
  | umol (rd rm rn : Reg)
  | umoli (rd rm : Reg) (imm : Imm)
  | and (rd rm rn : Reg)
  | andi (rd rm : Reg) (imm : Imm)
  | orr (rd rm rn : Reg)
  | orri (rd rm : Reg) (imm : Imm)
  | xor (rd rm rn : Reg)
  | xori (rd rm : Reg) (imm : Imm)
  | shl (rd rm rn : Reg)
  | shli (rd rm : Reg) (imm : Imm)
  | shr (rd rm rn : Reg)
  | shri (rd rm : Reg) (imm : Imm)
  | rtl (rd rm rn : Reg)
  | rtli (rd rm : Reg) (imm : Imm)
  | rtr (rd rm rn : Reg)
  | rtri (rd rm : Reg) (imm : Imm)
  | not (rd rm : Reg)
  | ldr (rd rm : Reg)
  | str (rd rm : Reg)
  | push (rd : Reg)
  | pop (rd : Reg)
  | jmp (imm : Imm)
  | jz (imm : Imm)
  | jn (imm : Imm)
  | jc (imm : Imm)
  | jv (imm : Imm)
  | jzn (imm : Imm)
  | syscall (imm : Imm)
  | halt
deriving DecidableEq, Repr

end Sys2Proof
end

