-- ==== Sys2Proof/Config.lean ====
section
/-! DEFINITION. The parameters of the model (00_scope.md R9): what is fixed when a machine is built,
and the one free value. No step changes a parameter. -/
namespace Sys2Proof

/-- ENC_OPTYPE: the numeric value of each OpType (30_encoding.md R64, D1). -/
structure TypeTable where
  it : BitVec 4
  rt : BitVec 4
  ut : BitVec 4
  st : BitVec 4
  jt : BitVec 4
deriving DecidableEq, Repr

/-- ENC_OPCODE: the numeric value of each OpCode (30_encoding.md R65, D2). -/
structure CodeTable where
  jmp : BitVec 8
  jz : BitVec 8
  jn : BitVec 8
  jc : BitVec 8
  jv : BitVec 8
  jzn : BitVec 8
  add : BitVec 8
  umul : BitVec 8
  udiv : BitVec 8
  umol : BitVec 8
  and : BitVec 8
  orr : BitVec 8
  xor : BitVec 8
  shl : BitVec 8
  shr : BitVec 8
  rtl : BitVec 8
  rtr : BitVec 8
  not : BitVec 8
  ldr : BitVec 8
  str : BitVec 8
  push : BitVec 8
  pop : BitVec 8
  syscall : BitVec 8
deriving DecidableEq, Repr

/-- Both encoding tables. "A model should take both tables as parameters" (30_encoding.md). -/
structure Encoding where
  types : TypeTable
  codes : CodeTable
deriving DecidableEq, Repr

/-- SHIFT_POLICY (92_eei_decisions.md D5): what a shift or rotate by 32 or more does. -/
inductive ShiftPolicy where
  /-- The default: SHL and SHR give 0, RTL and RTR rotate by B mod 32 (40_cycle_alu.md R99). -/
  | zeroAndMod
  /-- Every shift and rotate uses B mod 32. -/
  | maskMod32
  /-- Such a step has no successor state. -/
  | fault
deriving DecidableEq, Repr

/-- The parameters of 00_scope.md R9, held as plain data in State so that a claim over all states is a
claim over all parameters (logs 1 to 4). -/
structure Config where
  /-- MEM_SIZE, the number of word slots (R8). -/
  memSize : Nat
  /-- ENC_OPTYPE and ENC_OPCODE. -/
  enc : Encoding
  /-- SHIFT_POLICY. -/
  shiftPolicy : ShiftPolicy
  /-- GREETING, the byte string syscall 0 prints (44_control.md R179). -/
  greeting : List Byte
deriving DecidableEq, Repr

/-- DESIGN CHOICE (log 5). The line syscall 2 reads when the host has supplied none: "An end of input reads as
whatever line the host supplies" (D17). A free value: it has no body, so nothing can be proved of it. -/
opaque Config.freeLine : Nat → List Byte

end Sys2Proof
end

