-- ==== Sys2Proof/WellFormed.lean ====
section
/-! DEFINITION. The checks a parameter set must pass. An instruction needs none: a register field is one
of 16 and an immediate is 12 bits by its type (10_state.md R22, 30_encoding.md R69), so every term of
Instr is well formed. -/
namespace Sys2Proof

/-- The value a table gives an OpType. -/
def Encoding.typeOf (e : Encoding) : OpType → BitVec 4
  | .it => e.types.it
  | .rt => e.types.rt
  | .ut => e.types.ut
  | .st => e.types.st
  | .jt => e.types.jt

/-- The value a table gives an OpCode. -/
def Encoding.codeOf (e : Encoding) : OpCode → BitVec 8
  | .jmp => e.codes.jmp
  | .jz => e.codes.jz
  | .jn => e.codes.jn
  | .jc => e.codes.jc
  | .jv => e.codes.jv
  | .jzn => e.codes.jzn
  | .add => e.codes.add
  | .umul => e.codes.umul
  | .udiv => e.codes.udiv
  | .umol => e.codes.umol
  | .and => e.codes.and
  | .orr => e.codes.orr
  | .xor => e.codes.xor
  | .shl => e.codes.shl
  | .shr => e.codes.shr
  | .rtl => e.codes.rtl
  | .rtr => e.codes.rtr
  | .not => e.codes.not
  | .ldr => e.codes.ldr
  | .str => e.codes.str
  | .push => e.codes.push
  | .pop => e.codes.pop
  | .syscall => e.codes.syscall

/-- All five types. -/
def OpType.all : List OpType := [.it, .rt, .ut, .st, .jt]

/-- All 23 codes. -/
def OpCode.all : List OpCode :=
  [.jmp, .jz, .jn, .jc, .jv, .jzn, .add, .umul, .udiv, .umol, .and, .orr, .xor, .shl, .shr, .rtl, .rtr,
   .not, .ldr, .str, .push, .pop, .syscall]

/-- ENC_OPTYPE is "an injective map from the five types to 0..15 with It ↦ 0", ENC_OPCODE "an injective map to
0..255 with ADD ↦ 6" (92_eei_decisions.md D1, D2). -/
def Encoding.wf (e : Encoding) : Bool :=
  decide (OpType.all.map e.typeOf).Nodup && decide (OpCode.all.map e.codeOf).Nodup &&
    e.types.it == 0 && e.codes.add == 6

/-- 1 ≤ MEM_SIZE ≤ 2^32 (00_scope.md R8), and the tables are well formed. -/
def Config.wf (c : Config) : Bool :=
  decide (1 ≤ c.memSize) && decide (c.memSize ≤ 4294967296) && c.enc.wf

end Sys2Proof
end

