-- ==== Sys2Proof/Decode.lean ====
section
/-! DEFINITION. Fields, decoder and encoder (30_encoding.md). Decoding depends on the word and the encoding
tables alone (R73). -/
namespace Sys2Proof

/-- The terminator word (30_encoding.md R70). -/
def terminator : Word := 0xFFFFFFFF#32

/-- UNVERIFIED (log 2). The decided tables of 30_encoding.md R64 and R65; only It = 0 and ADD = 6 are shown by a word of
the document. -/
def Encoding.standard : Encoding where
  types := { it := 0, rt := 1, ut := 2, st := 3, jt := 4 }
  codes :=
    { jmp := 0, jz := 1, jn := 2, jc := 3, jv := 4, jzn := 5, add := 6, umul := 7, udiv := 8, umol := 9,
      and := 10, orr := 11, xor := 12, shl := 13, shr := 14, rtl := 15, rtr := 16, not := 17, ldr := 18,
      str := 19, push := 20, pop := 21, syscall := 22 }

/-- The fields of an instruction word, Rn apart, which shares bits with imm (30_encoding.md R61, R62). -/
structure Fields where
  type : BitVec 4
  code : BitVec 8
  rd : Reg
  rm : Reg
  imm : Imm
deriving DecidableEq, Repr

/-- Rn is w[23:20], the low four bits of imm (30_encoding.md R62). -/
def Fields.rn (d : Fields) : Reg := (d.imm.extractLsb' 0 4).toFin

/-- Field extraction (30_encoding.md R61); total, with no validation (R63). -/
def Fields.ofWord (w : Word) : Fields where
  type := w.extractLsb' 0 4
  code := w.extractLsb' 4 8
  rd := (w.extractLsb' 12 4).toFin
  rm := (w.extractLsb' 16 4).toFin
  imm := w.extractLsb' 20 12

/-- The word of given fields (30_encoding.md R71): imm, Rm, Rd, code, type from bit 31 down to bit 0. -/
def Fields.toWord (d : Fields) : Word :=
  d.imm ++ BitVec.ofFin (w := 4) d.rm ++ BitVec.ofFin (w := 4) d.rd ++ d.code ++ d.type

/-- The OpType a table gives this value to, if any (30_encoding.md R64). -/
def Encoding.typeFor (e : Encoding) (v : BitVec 4) : Option OpType :=
  OpType.all.find? (fun t => e.typeOf t == v)

/-- The OpCode a table gives this value to, if any (30_encoding.md R65). -/
def Encoding.codeFor (e : Encoding) (v : BitVec 8) : Option OpCode :=
  OpCode.all.find? (fun c => e.codeOf c == v)

/-- The legal (type, code) pairs and the fields each uses (30_encoding.md R66, R68). UNVERIFIED (log 25): the list is
the spec's decision D3. -/
def instrOf (t : OpType) (c : OpCode) (d : Fields) : Option Instr :=
  match t, c with
  | .rt, .add => some (.add d.rd d.rm d.rn)
  | .it, .add => some (.addi d.rd d.rm d.imm)
  | .rt, .umul => some (.umul d.rd d.rm d.rn)
  | .it, .umul => some (.umuli d.rd d.rm d.imm)
  | .rt, .udiv => some (.udiv d.rd d.rm d.rn)
  | .it, .udiv => some (.udivi d.rd d.rm d.imm)
  | .rt, .umol => some (.umol d.rd d.rm d.rn)
  | .it, .umol => some (.umoli d.rd d.rm d.imm)
  | .rt, .and => some (.and d.rd d.rm d.rn)
  | .it, .and => some (.andi d.rd d.rm d.imm)
  | .rt, .orr => some (.orr d.rd d.rm d.rn)
  | .it, .orr => some (.orri d.rd d.rm d.imm)
  | .rt, .xor => some (.xor d.rd d.rm d.rn)
  | .it, .xor => some (.xori d.rd d.rm d.imm)
  | .rt, .shl => some (.shl d.rd d.rm d.rn)
  | .it, .shl => some (.shli d.rd d.rm d.imm)
  | .rt, .shr => some (.shr d.rd d.rm d.rn)
  | .it, .shr => some (.shri d.rd d.rm d.imm)
  | .rt, .rtl => some (.rtl d.rd d.rm d.rn)
  | .it, .rtl => some (.rtli d.rd d.rm d.imm)
  | .rt, .rtr => some (.rtr d.rd d.rm d.rn)
  | .it, .rtr => some (.rtri d.rd d.rm d.imm)
  | .ut, .not => some (.not d.rd d.rm)
  | .ut, .ldr => some (.ldr d.rd d.rm)
  | .ut, .str => some (.str d.rd d.rm)
  | .st, .push => some (.push d.rd)
  | .st, .pop => some (.pop d.rd)
  | .jt, .jmp => some (.jmp d.imm)
  | .jt, .jz => some (.jz d.imm)
  | .jt, .jn => some (.jn d.imm)
  | .jt, .jc => some (.jc d.imm)
  | .jt, .jv => some (.jv d.imm)
  | .jt, .jzn => some (.jzn d.imm)
  | .jt, .syscall => some (.syscall d.imm)
  | _, _ => none

/-- What the decoder rejects: a word whose (type, code) pair is not legal (30_encoding.md R68, R72). -/
inductive DecodeError where
  | unknownOpCode (type : BitVec 4) (code : BitVec 8)
deriving DecidableEq, Repr

/-- The instruction of a word under given tables. The terminator is recognised on the raw word, before its
fields (30_encoding.md R70). -/
def decode (e : Encoding) (w : Word) : Except DecodeError Instr :=
  if w = terminator then .ok .halt
  else
    let d := Fields.ofWord w
    match e.typeFor d.type, e.codeFor d.code with
    | some t, some c =>
      match instrOf t c d with
      | some i => .ok i
      | none => .error (.unknownOpCode d.type d.code)
    | _, _ => .error (.unknownOpCode d.type d.code)

/-- The Rt form: Rn in bits 23 to 20, zeros above (30_encoding.md R71). -/
def encodeRt (e : Encoding) (c : OpCode) (rd rm rn : Reg) : Word :=
  Fields.toWord ⟨e.typeOf .rt, e.codeOf c, rd, rm, (0#8 ++ BitVec.ofFin (w := 4) rn : BitVec 12)⟩

/-- The It form: imm in bits 31 to 20. -/
def encodeIt (e : Encoding) (c : OpCode) (rd rm : Reg) (imm : Imm) : Word :=
  Fields.toWord ⟨e.typeOf .it, e.codeOf c, rd, rm, imm⟩

/-- The Ut form: the ignored bits 31 to 20 written as zeros (log 19). -/
def encodeUt (e : Encoding) (c : OpCode) (rd rm : Reg) : Word :=
  Fields.toWord ⟨e.typeOf .ut, e.codeOf c, rd, rm, 0⟩

/-- The St form: the ignored bits 31 to 16 written as zeros. -/
def encodeSt (e : Encoding) (c : OpCode) (rd : Reg) : Word :=
  Fields.toWord ⟨e.typeOf .st, e.codeOf c, rd, 0, 0⟩

/-- The Jt form: the ignored bits 19 to 12 written as zeros. -/
def encodeJt (e : Encoding) (c : OpCode) (imm : Imm) : Word :=
  Fields.toWord ⟨e.typeOf .jt, e.codeOf c, 0, 0, imm⟩

/-- The word of an instruction under given tables (30_encoding.md R71). -/
def encode (e : Encoding) : Instr → Word
  | .add rd rm rn => encodeRt e .add rd rm rn
  | .addi rd rm imm => encodeIt e .add rd rm imm
  | .umul rd rm rn => encodeRt e .umul rd rm rn
  | .umuli rd rm imm => encodeIt e .umul rd rm imm
  | .udiv rd rm rn => encodeRt e .udiv rd rm rn
  | .udivi rd rm imm => encodeIt e .udiv rd rm imm
  | .umol rd rm rn => encodeRt e .umol rd rm rn
  | .umoli rd rm imm => encodeIt e .umol rd rm imm
  | .and rd rm rn => encodeRt e .and rd rm rn
  | .andi rd rm imm => encodeIt e .and rd rm imm
  | .orr rd rm rn => encodeRt e .orr rd rm rn
  | .orri rd rm imm => encodeIt e .orr rd rm imm
  | .xor rd rm rn => encodeRt e .xor rd rm rn
  | .xori rd rm imm => encodeIt e .xor rd rm imm
  | .shl rd rm rn => encodeRt e .shl rd rm rn
  | .shli rd rm imm => encodeIt e .shl rd rm imm
  | .shr rd rm rn => encodeRt e .shr rd rm rn
  | .shri rd rm imm => encodeIt e .shr rd rm imm
  | .rtl rd rm rn => encodeRt e .rtl rd rm rn
  | .rtli rd rm imm => encodeIt e .rtl rd rm imm
  | .rtr rd rm rn => encodeRt e .rtr rd rm rn
  | .rtri rd rm imm => encodeIt e .rtr rd rm imm
  | .not rd rm => encodeUt e .not rd rm
  | .ldr rd rm => encodeUt e .ldr rd rm
  | .str rd rm => encodeUt e .str rd rm
  | .push rd => encodeSt e .push rd
  | .pop rd => encodeSt e .pop rd
  | .jmp imm => encodeJt e .jmp imm
  | .jz imm => encodeJt e .jz imm
  | .jn imm => encodeJt e .jn imm
  | .jc imm => encodeJt e .jc imm
  | .jv imm => encodeJt e .jv imm
  | .jzn imm => encodeJt e .jzn imm
  | .syscall imm => encodeJt e .syscall imm
  | .halt => terminator

/-- A word given as the opcode table numbers its bits: bit 0 the least significant (00_scope.md R10); bits at nbits
and above are 0. Every instruction is one 32-bit word (30_encoding.md R60). -/
def tableWord (nbits w : Nat) : Word := BitVec.ofNat 32 (w % 2 ^ nbits)

/-- The instruction the decoder reads from a table word, under the tables of R64 and R65. -/
def decodeTableWord (nbits w : Nat) : Option Instr :=
  match decode Encoding.standard (tableWord nbits w) with
  | .ok i => some i
  | .error _ => none

end Sys2Proof
end

