-- ==== Sys2Proof/Machine/Params.lean ====
section
/-! DEFINITION. The parameter values State.reset holds (00_scope.md R9). -/
namespace Sys2Proof.Machine

/-- MEM_SIZE at reset: 50, the setting of scenario S1 and of the test vectors. DESIGN CHOICE, unsafe (log 1): the
spec leaves MEM_SIZE open. The tables and the shift policy are the spec's defaults (logs 2, 3). The greeting is
empty. DESIGN CHOICE, unsafe (log 4): the spec leaves its text open. -/
def resetConfig : Config where
  memSize := 50
  enc := Encoding.standard
  shiftPolicy := .zeroAndMod
  greeting := []

end Sys2Proof.Machine
end

