-- ==== Sys2Proof/Machine/State.lean ====
section
/-! DEFINITION. Everything the spec gives the machine to hold (10_state.md), as plain data, and the reasons a
step can stop. -/
namespace Sys2Proof.Machine

/-- The four flags (10_state.md R28); also the flag set an ALU operation returns (00_scope.md R13): a flag is true
exactly when it is in the set. -/
structure Psr where
  n : Bool
  z : Bool
  c : Bool
  v : Bool
deriving DecidableEq, Repr

/-- An inclusive address range [start, last] (20_memory.md R47). -/
structure Segment where
  start : Word
  last : Word
deriving DecidableEq, Repr

/-- The segment map: exactly four entries (10_state.md R32). -/
structure SegMap where
  cs : Segment
  ds : Segment
  ss : Segment
  es : Segment
deriving DecidableEq, Repr

/-- Memory: (slot address, word) pairs, addresses strictly rising, no pair holding 0, which is what an unlisted slot
reads as (20_memory.md R40: "default-initialized to 0"). A cell is a word, the spec's only access unit (R42; log 7). -/
abbrev Memory := List (Nat × Word)

/-- The fatal kinds (60_exceptions.md R201). -/
inductive FatalKind where
  | addressOutOfRange
  | segmentMisconfig
  | pcOutOfCS
  | stackOverflow
  | unknownSyscall
  | unknownOpCode
  | syscallOverflow
  | loaderParse
deriving DecidableEq, Repr

/-- The run status (10_state.md R33). -/
inductive RunStatus where
  | unconfigured
  | running
  | halted
  | fatal (k : FatalKind)
deriving DecidableEq, Repr

/-- A trace record: the retired instruction's count and word, its decoded fields, and the state after its writeback
(60_exceptions.md R219). The memory snapshot per segment is mem read through seg. -/
structure TraceRecord where
  count : Nat
  word : Word
  decoded : Fields
  mem : Memory
  regs : Vector Word 16
  psr : Psr
  seg : Option SegMap
deriving DecidableEq, Repr

/-- An entry of the tracer's log: a record, or the ERROR entry of a fatal kind (60_exceptions.md R219, R222). -/
inductive LogEntry where
  | record (r : TraceRecord)
  | error (k : FatalKind)
deriving DecidableEq, Repr

/-- An attached tracer: its log, oldest first, and whether the log is still open (60_exceptions.md R222; log 16). -/
structure Tracer where
  log : List LogEntry
  isOpen : Bool
deriving DecidableEq, Repr

/-- The state of the machine (10_state.md, state summary), the host streams behind the syscall port
(60_exceptions.md R220), the tracer (R219) and the parameters (00_scope.md R9). -/
structure State where
  /-- x[0] to x[15]; SP is 13, LR 14, PC 15 (R20, R21). -/
  regs : Vector Word 16
  psr : Psr
  /-- The segment map, absent before a successful init (R32, R35). -/
  seg : Option SegMap
  mem : Memory
  status : RunStatus
  /-- The number of retired instructions (R34). -/
  retired : Nat
  /-- The parameters; no step changes them. -/
  cfg : Config
  /-- CONSOLE_IN: the lines the host has supplied and no syscall has read, oldest first. -/
  consoleIn : List (List Byte)
  /-- The bytes written to the console output, oldest first. -/
  consoleOut : List Byte
  /-- The model's own counter of free lines drawn (log 5). -/
  freeLines : Nat
  tracer : Option Tracer
deriving DecidableEq, Repr

/-- A fatal kind with the information the rule that raises it names (00_scope.md R13, raise K(info)). Every one ends
the run. Safe: no next state follows, so no claim about a result rests on it (60_exceptions.md R212). -/
inductive Cause where
  /-- MemRead or MemWrite at a slot that does not exist: LDR, STR, syscalls 1 and 2, clear (R202). -/
  | addressOutOfRange (a : Nat)
  /-- init on a map that breaks an invariant, or an image longer than its segment (R207). -/
  | segmentMisconfig
  /-- Fetch with the PC outside CS (R203). -/
  | pcOutOfCS (p : Word)
  /-- PUSH with the new SP outside SS (R204). -/
  | stackOverflow (new : Word)
  /-- SYSCALL with a number other than 0, 1, 2 (R206). -/
  | unknownSyscall (n : Imm)
  /-- A word whose (type, code) pair is not legal (R205). -/
  | unknownOpCode (type : BitVec 4) (code : BitVec 8)
  /-- Syscall 2 with a line longer than x[1] (R206). -/
  | syscallOverflow (len : Nat)
  /-- The loader on a bad file (R207, 70_reset_and_hazards.md R243). -/
  | loaderParse
deriving DecidableEq, Repr

/-- Why a step or a port transaction has no next state. -/
inductive Fault where
  /-- The machine reports a fatal kind. `left` is the state it leaves: the completed sub-steps, status Fatal(K), the
  tracer's ERROR entry (60_exceptions.md R200, R212); the state unchanged for a clear that fails after the end of a run
  (log 26). Raised by fetch, decode, LDR, STR, PUSH, SYSCALL, init, the load
  port, clear and the loader. Safe (log 8). -/
  | fatal (c : Cause) (left : State)
  /-- A step asked for while the status is not Running: no step exists (10_state.md R33). Raised by step. Safe (log 9). -/
  | notRunning (st : RunStatus)
  /-- A shift or rotate by b ≥ 32 under SHIFT_POLICY = fault: stuck, no fatal kind is invented (D5). Raised by SHL, SHR,
  RTL, RTR and their I forms. Safe (log 3). -/
  | shiftAmountOpen (b : Word)
  /-- A configuration or load transaction in a status in which the spec gives it none. Raised by initPort,
  bootFile, loadInstructions and loadData. Safe (log 13). -/
  | portClosed (st : RunStatus)
deriving DecidableEq, Repr

/-- Why a step has no meaning. -/
inductive Refusal where
  /-- The instruction has no meaning yet. Raised by no arm of exec. Safe. -/
  | notModelled (mnemonic : String)
deriving DecidableEq, Repr

/-- What a step or a port transaction answers. -/
abbrev Answer := Host.Outcome State Fault Refusal

/-- The machine after power-on, before init (10_state.md R35). The parameters are resetConfig; the console streams
hold nothing yet and no tracer is attached (logs 1 to 6, 16). -/
def State.reset : State where
  regs := Vector.replicate 16 0
  psr := ⟨false, false, false, false⟩
  seg := none
  mem := []
  status := .unconfigured
  retired := 0
  cfg := resetConfig
  consoleIn := []
  consoleOut := []
  freeLines := 0
  tracer := none

end Sys2Proof.Machine
end

