-- ==== Sys2Proof/Machine/Ops.lean ====
section
/-! DEFINITION. The named operations over registers, memory, segments, the tracer and the fatal stop, which the
meanings are written over. -/
namespace Sys2Proof.Machine

/-! ### Registers (10_state.md R20 to R27) -/

/-- x[r]. No register access can fail (R22). -/
def State.reg (s : State) (r : Reg) : Word := s.regs[r]

/-- x[r] <- v. No register is hardwired (R21). -/
def State.setReg (s : State) (r : Reg) (v : Word) : State := { s with regs := s.regs.set r v }

/-- PSR <- F, all four flags (40_cycle_alu.md R85). -/
def State.setPsr (s : State) (f : Psr) : State := { s with psr := f }

/-- The PSR as a 4-bit value, V ++ C ++ Z ++ N (10_state.md R28). -/
def Psr.toBits (f : Psr) : BitVec 4 :=
  BitVec.ofBool f.v ++ BitVec.ofBool f.c ++ BitVec.ofBool f.z ++ BitVec.ofBool f.n

/-! ### Memory (20_memory.md R40 to R45) -/

/-- The word of a slot; 0 where nothing is listed (R40). -/
def Memory.read : Memory → Nat → Word
  | [], _ => 0
  | (b, v) :: rest, a => if b = a then v else Memory.read rest a

/-- Drop every entry of one address. -/
def Memory.erase (m : Memory) (a : Nat) : Memory := m.filter (fun e => e.1 != a)

/-- Put an entry in its place by address. -/
def Memory.insert : Memory → Nat → Word → Memory
  | [], a, v => [(a, v)]
  | (b, u) :: rest, a, v => if a < b then (a, v) :: (b, u) :: rest else (b, u) :: Memory.insert rest a v

/-- Set a slot, keeping the canonical form: a slot set to 0 is unlisted. -/
def Memory.write (m : Memory) (a : Nat) (v : Word) : Memory :=
  if v = 0 then Memory.erase m a else Memory.insert (Memory.erase m a) a v

/-- Zero the slots lo to hi, both included (R45). -/
def Memory.clearRange (m : Memory) (lo hi : Nat) : Memory := m.filter (fun e => decide (e.1 < lo) || decide (hi < e.1))

/-- The canonical form: addresses strictly rising, no entry 0. -/
def Memory.wf (m : Memory) : Bool :=
  decide (m.Pairwise (fun p q => p.1 < q.1)) && m.all (fun e => e.2 != 0)

/-- The word slot a holds, whether or not the slot exists. -/
def State.slot (s : State) (a : Nat) : Word := Memory.read s.mem a

/-- MemRead(a): none when a ≥ MEM_SIZE (R43). -/
def State.memRead (s : State) (a : Nat) : Option Word :=
  if a < s.cfg.memSize then some (s.slot a) else none

/-- mem[a] <- v on a slot that exists. -/
def State.setSlot (s : State) (a : Nat) (v : Word) : State := { s with mem := Memory.write s.mem a v }

/-- MemWrite(a, v): none when a ≥ MEM_SIZE (R44). -/
def State.memWrite (s : State) (a : Nat) (v : Word) : Option State :=
  if a < s.cfg.memSize then some (s.setSlot a v) else none

/-! ### Segments (20_memory.md R47 to R49) -/

/-- a ∈ S ⇔ S.start ≤ a ≤ S.last (R47). -/
def Segment.contains (g : Segment) (a : Word) : Bool := decide (g.start ≤ a) && decide (a ≤ g.last)

/-- a ∈ CS. Before init there is no CS and nothing is in it (log 11). -/
def State.inCS (s : State) (a : Word) : Bool :=
  match s.seg with
  | some m => m.cs.contains a
  | none => false

/-- a ∈ SS (log 11). -/
def State.inSS (s : State) (a : Word) : Bool :=
  match s.seg with
  | some m => m.ss.contains a
  | none => false

/-- Two ranges with no address in both (R48 item 3). -/
def Segment.apart (g h : Segment) : Bool := decide (g.last < h.start) || decide (h.last < g.start)

/-- start ≤ end and end < MEM_SIZE (R48 item 2). -/
def Segment.fits (g : Segment) (memSize : Nat) : Bool := decide (g.start ≤ g.last) && decide (g.last.toNat < memSize)

/-- The invariants of a stored map (R48). -/
def SegMap.wf (m : SegMap) (memSize : Nat) : Bool :=
  m.cs.fits memSize && m.ds.fits memSize && m.ss.fits memSize && m.es.fits memSize &&
    m.cs.apart m.ds && m.cs.apart m.ss && m.cs.apart m.es && m.ds.apart m.ss && m.ds.apart m.es && m.ss.apart m.es

/-! ### The fatal stop (60_exceptions.md R200 to R207, R222) -/

/-- The kind of a cause. -/
def Cause.kind : Cause → FatalKind
  | .addressOutOfRange _ => .addressOutOfRange
  | .segmentMisconfig => .segmentMisconfig
  | .pcOutOfCS _ => .pcOutOfCS
  | .stackOverflow _ => .stackOverflow
  | .unknownSyscall _ => .unknownSyscall
  | .unknownOpCode _ _ => .unknownOpCode
  | .syscallOverflow _ => .syscallOverflow
  | .loaderParse => .loaderParse

/-- The code the status port shows (R201). -/
def FatalKind.code : FatalKind → Nat
  | .addressOutOfRange => 1
  | .segmentMisconfig => 2
  | .pcOutOfCS => 3
  | .stackOverflow => 4
  | .unknownSyscall => 5
  | .unknownOpCode => 6
  | .syscallOverflow => 7
  | .loaderParse => 8

/-- An open log receives an entry; a closed one is left as it is (log 16). -/
def Tracer.put (t : Tracer) (e : LogEntry) : Tracer := if t.isOpen then { t with log := t.log ++ [e] } else t

/-- The ERROR entry, then the log is closed (R222). -/
def Tracer.fail (t : Tracer) (k : FatalKind) : Tracer := { t.put (.error k) with isOpen := false }

/-- status <- Fatal(K), and the tracer's ERROR entry (R200 items 2 and 3). -/
def State.stopped (s : State) (k : FatalKind) : State :=
  { s with status := .fatal k, tracer := s.tracer.map (fun t => t.fail k) }

/-- raise K(info): the run ends, with the sub-steps completed so far in the state left (R200, R212). There is no
handler, nothing is saved and there is no return (R213). -/
def raise (c : Cause) (s : State) : Answer := .fault (.fatal c (s.stopped c.kind))

/-! ### Cycle (40_cycle_alu.md R80 to R82, R104) -/

/-- x[15] <- x[15] + 1, modulo 2^32 (R81). -/
def State.advancePc (s : State) : State := s.setReg pcReg (s.reg pcReg + 1)

/-- Step 1: the CS check and the read (R81). -/
def fetchWord (s : State) : Except Cause Word :=
  if s.inCS (s.reg pcReg) then
    match s.memRead (s.reg pcReg).toNat with
    | some w => .ok w
    | none => .error (.addressOutOfRange (s.reg pcReg).toNat)
  else .error (.pcOutOfCS (s.reg pcReg))

/-- The trace record of a retired instruction (60_exceptions.md R219). -/
def State.traceRecord (s : State) (w : Word) : TraceRecord :=
  { count := s.retired, word := w, decoded := Fields.ofWord w, mem := s.mem, regs := s.regs, psr := s.psr, seg := s.seg }

/-- Step 8: count the retired instruction, then offer its record (R80, R104). -/
def State.retire (s : State) (w : Word) : State :=
  { s with
    retired := s.retired + 1
    tracer := s.tracer.map (fun t => t.put (.record ({ s with retired := s.retired + 1 }.traceRecord w))) }

/-- What follows an instruction's own effect: it retires unless it ended the run (the terminator is not retired,
R82). -/
def finish (w : Word) : Answer → Answer
  | .next t => .next (if t.status = .running then t.retire w else t)
  | .fault r => .fault r
  | .refused r => .refused r

/-- The words a segment holds, lowest address first: a record's memory snapshot "grouped per segment" (R219). -/
def Segment.contents (g : Segment) (m : Memory) : List Word :=
  (List.range (g.last.toNat + 1 - g.start.toNat)).map (fun i => Memory.read m (g.start.toNat + i))

/-! ### Maintenance operations (20_memory.md R45); no instruction issues them. DESIGN CHOICE (log 26): the spec names no
run status for them, and they are open in every one. -/

/-- Halted and Fatal(K) are terminal (10_state.md R33). -/
def RunStatus.ended : RunStatus → Bool
  | .unconfigured => false
  | .running => false
  | .halted => true
  | .fatal _ => true

/-- A failed bounds check of clear. Nothing leaves a terminal status (10_state.md R33), so after the end of a run the
failure changes nothing (log 26). -/
def clearFails (a : Nat) (s : State) : Answer :=
  if s.status.ended then .fault (.fatal (.addressOutOfRange a) s) else raise (.addressOutOfRange a) s

/-- clear(), in every status (log 26). -/
def clearAll (s : State) : Answer := .next { s with mem := [] }

/-- clear(begin, end), in every status (log 26): the bounds check first; nothing when begin > end. DESIGN CHOICE (log 27):
the failure carries begin when begin is out of range, else end. -/
def clearRange (lo hi : Nat) (s : State) : Answer :=
  if s.cfg.memSize ≤ lo then clearFails lo s
  else if s.cfg.memSize ≤ hi then clearFails hi s
  else .next { s with mem := Memory.clearRange s.mem lo hi }

end Sys2Proof.Machine
end

