-- ==== Sys2Proof/Machine/Boot.lean ====
section
/-! DEFINITION. The configuration port, the load port and the status port (70_reset_and_hazards.md R230 to R235,
60_exceptions.md R217, R218, R221). No instruction uses them. -/
namespace Sys2Proof.Machine

/-- A range as a caller of init gives it. Bounds are mathematical numbers: the loader's synthesised SS may start past
the last word address (log 20). -/
structure SegRange where
  start : Nat
  last : Nat
deriving DecidableEq, Repr

/-- A map as a caller of init gives it: a key may be missing (R230). -/
structure SegRequest where
  cs : Option SegRange
  ds : Option SegRange
  ss : Option SegRange
  es : Option SegRange
deriving DecidableEq, Repr

/-- start ≤ end and end < MEM_SIZE. -/
def SegRange.fits (g : SegRange) (memSize : Nat) : Bool := decide (g.start ≤ g.last) && decide (g.last < memSize)

/-- No address in both. -/
def SegRange.apart (g h : SegRange) : Bool := decide (g.last < h.start) || decide (h.last < g.start)

/-- end − start + 1. -/
def SegRange.size (g : SegRange) : Nat := g.last - g.start + 1

/-- The range as stored: two words (10_state.md R32). -/
def SegRange.toSegment (g : SegRange) : Segment := ⟨BitVec.ofNat 32 g.start, BitVec.ofNat 32 g.last⟩

/-- R230's four checks on four present ranges. -/
def rangesValid (memSize : Nat) (cs ds ss es : SegRange) : Bool :=
  cs.fits memSize && ds.fits memSize && ss.fits memSize && es.fits memSize &&
    cs.apart ds && cs.apart ss && cs.apart es && ds.apart ss && ds.apart es && ss.apart es &&
    decide (cs.size + ds.size + ss.size + es.size ≤ memSize)

/-- The validated map, or none (R230). -/
def SegRequest.validate (m : SegRequest) (memSize : Nat) : Option SegMap :=
  match m.cs, m.ds, m.ss, m.es with
  | some cs, some ds, some ss, some es =>
    if rangesValid memSize cs ds ss es then some ⟨cs.toSegment, ds.toSegment, ss.toSegment, es.toSegment⟩ else none
  | _, _, _, _ => none

/-- R231: the map is stored, SP is one past SS, PC is the start of CS, the run may begin. -/
def State.configured (s : State) (m : SegMap) : State :=
  { (s.setReg spReg (m.ss.last + 1)).setReg pcReg m.cs.start with seg := some m, status := .running }

/-- init(segmentMap) (R230 to R232). It is the transition out of Unconfigured (10_state.md R33); in another status the
port is closed (log 13). -/
def initPort (m : SegRequest) (s : State) : Answer :=
  if s.status = .unconfigured then
    match m.validate s.cfg.memSize with
    | some map => .next (s.configured map)
    | none => raise .segmentMisconfig s
  else .fault (.portClosed s.status)

/-- Words into consecutive slots from address a on. -/
def storeWords : List Word → Nat → State → Answer
  | [], _, s => .next s
  | w :: rest, a, s =>
    match s.memWrite a w with
    | some s1 => storeWords rest (a + 1) s1
    | none => raise (.addressOutOfRange a) s

/-- The number of slots of a stored segment. -/
def Segment.size (g : Segment) : Nat := g.last.toNat + 1 - g.start.toNat

/-- An image into a segment: refused whole when it is longer (R234, R235). -/
def loadImage (image : List Word) (g : Segment) (s : State) : Answer :=
  if g.size < image.length then raise .segmentMisconfig s else storeWords image g.start.toNat s

/-- The load port is open in Running before the first step (60_exceptions.md R218), which is while nothing has retired
(log 21). -/
def State.loadable (s : State) : Bool := decide (s.status = .running) && decide (s.retired = 0)

/-- loadInstructions (R234). -/
def loadInstructions (image : List Word) (s : State) : Answer :=
  match s.loadable, s.seg with
  | true, some m => loadImage image m.cs s
  | _, _ => .fault (.portClosed s.status)

/-- loadData (R235). -/
def loadData (image : List Word) (s : State) : Answer :=
  match s.loadable, s.seg with
  | true, some m => loadImage image m.ds s
  | _, _ => .fault (.portClosed s.status)

/-- Go on with the next state, if there is one. -/
def Answer.andThen (o : Answer) (f : State → Answer) : Answer :=
  match o with
  | .next s => f s
  | .fault r => .fault r
  | .refused r => .refused r

/-- The boot sequence after the loader: init, loadInstructions, loadData (R233 items 3 and 4). -/
def bootImages (m : SegRequest) (text data : List Word) (s : State) : Answer :=
  Answer.andThen (initPort m s) (fun s1 => Answer.andThen (loadInstructions text s1) (loadData data))

/-- Attach a tracer with an empty open log, before the run (60_exceptions.md R219). -/
def State.attachTracer (s : State) : State := { s with tracer := some ⟨[], true⟩ }

/-- The process exit status (60_exceptions.md R221): 1 when no path is given, 0 at a normal end, no number fixed
otherwise (D28). -/
def processExit (pathGiven : Bool) (st : RunStatus) : Option Nat :=
  if pathGiven then (if st = .halted then some 0 else none) else some 1

/-- Scenario S1's segment map (95_test_vectors.md). -/
def s1Map : SegMap := ⟨⟨0, 24⟩, ⟨31, 47⟩, ⟨25, 30⟩, ⟨48, 48⟩⟩

/-- Whether the next step fetches from memory at the PC. -/
def State.fetches (s : State) : Bool :=
  decide (s.status = .running) && s.inCS (s.reg pcReg) && decide ((s.reg pcReg).toNat < s.cfg.memSize)

/-- A state that fetches at its PC under the tables of R64 and R65: the state itself when it does so already; else the
state as init with S1's map leaves it (log 14). -/
def State.readyToFetch (s : State) : State :=
  if s.fetches && decide (s.cfg.enc = Encoding.standard) then s
  else
    { s with cfg := { s.cfg with memSize := max s.cfg.memSize 50, enc := Encoding.standard } }.configured s1Map

end Sys2Proof.Machine
end

