-- ==== Sys2Proof/Machine/Flags.lean ====
section
/-! DEFINITION. The flag computations (40_cycle_alu.md R87, R88). -/
namespace Sys2Proof.Machine

/-- The empty flag set. -/
def Psr.none : Psr := ⟨false, false, false, false⟩

/-- NZ(r): N is bit 31, Z says r = 0 (R87). -/
def nzFlags (r : Word) : Psr := ⟨r.getLsbD 31, decide (r = 0), false, false⟩

/-- C of ADD: the sum wraps strictly past both operands, the document's own test (R88). -/
def addCarry (a b r : Word) : Bool := decide (r < a) && decide (r < b)

/-- V of ADD: the top bits of A and B agree and disagree with the result's (R88). -/
def addOverflow (a b r : Word) : Bool := (a.getLsbD 31 == b.getLsbD 31) && (r.getLsbD 31 != a.getLsbD 31)

/-- The flags of ADD (R88). -/
def addFlags (a b r : Word) : Psr := { nzFlags r with c := addCarry a b r, v := addOverflow a b r }

end Sys2Proof.Machine
end

