-- ==== Sys2Proof/Machine/Alu.lean ====
section
/-! DEFINITION. The ALU: 13 micro-ops (40_cycle_alu.md R86 to R101). -/
namespace Sys2Proof.Machine

/-- The micro-ops (R86). PASS and COMP are no instruction opcodes (R83). -/
inductive AluOp where
  | add | umul | udiv | umol | pass | and | orr | xor | comp | shl | shr | rtl | rtr
deriving DecidableEq, Repr

/-- The pair an ALU operation returns. -/
structure AluResult where
  result : Word
  flags : Psr
deriving DecidableEq, Repr

/-- A result with the flags N and Z computed from it (R87). -/
def AluResult.nz (r : Word) : AluResult := ⟨r, nzFlags r⟩

/-- Rotate left by k < 32 places (R100). -/
def rotateLeftBy (a : Word) (k : Nat) : Word := if k = 0 then a else (a <<< k) ||| (a >>> (32 - k))

/-- Rotate right by k < 32 places (R101). -/
def rotateRightBy (a : Word) (k : Nat) : Word := if k = 0 then a else (a >>> k) ||| (a <<< (32 - k))

/-- The places SHL and SHR move by, none when every bit leaves the word (R97 to R99, D5). Under the policy fault a
move by 32 or more is stopped before the ALU (aluStuck), so its row here decides nothing. -/
def shiftPlaces (p : ShiftPolicy) (b : Word) : Option Nat :=
  if b.toNat < 32 then some b.toNat
  else
    match p with
    | .maskMod32 => some (b.toNat % 32)
    | .zeroAndMod => none
    | .fault => none

/-- SHL (R97). -/
def shiftLeft (p : ShiftPolicy) (a b : Word) : Word :=
  match shiftPlaces p b with
  | some k => a <<< k
  | none => 0

/-- SHR (R98). -/
def shiftRight (p : ShiftPolicy) (a b : Word) : Word :=
  match shiftPlaces p b with
  | some k => a >>> k
  | none => 0

/-- ALU(op, A, B): total and pure (R86). -/
def alu (p : ShiftPolicy) (op : AluOp) (a b : Word) : AluResult :=
  match op with
  | .add => ⟨a + b, addFlags a b (a + b)⟩
  | .umul => .nz (a * b)
  | .udiv => if b = 0 then ⟨0, Psr.none⟩ else .nz (a / b)
  | .umol => if b = 0 then ⟨0, Psr.none⟩ else .nz (a % b)
  | .pass => .nz a
  | .and => .nz (a &&& b)
  | .orr => .nz (a ||| b)
  | .xor => .nz (a ^^^ b)
  | .comp => .nz (~~~a)
  | .shl => .nz (shiftLeft p a b)
  | .shr => .nz (shiftRight p a b)
  | .rtl => .nz (rotateLeftBy a (b.toNat % 32))
  | .rtr => .nz (rotateRightBy a (b.toNat % 32))

/-- The four operations whose amount the policy governs (R99). -/
def AluOp.moves : AluOp → Bool
  | .shl => true
  | .shr => true
  | .rtl => true
  | .rtr => true
  | .add => false
  | .umul => false
  | .udiv => false
  | .umol => false
  | .pass => false
  | .and => false
  | .orr => false
  | .xor => false
  | .comp => false

/-- SHIFT_POLICY = fault and an amount of 32 or more: the step has no successor (D5, 93 I1). -/
def aluStuck (p : ShiftPolicy) (op : AluOp) (b : Word) : Bool :=
  op.moves && decide (p = .fault) && decide (32 ≤ b.toNat)

end Sys2Proof.Machine
end

