-- ==== Sys2Proof/Machine/Operands.lean ====
section
/-! DEFINITION. ALU-input synthesis (40_cycle_alu.md R83; 30_encoding.md R66) and the two shared shapes an
instruction has: an ALU pass with default writeback, and a jump. -/
namespace Sys2Proof.Machine

/-- The operands A and B of an ALU pass. -/
structure AluInput where
  a : Word
  b : Word
deriving DecidableEq, Repr

/-- Rt: (x[Rm], x[Rn]). -/
def rtInput (rm rn : Reg) (s : State) : AluInput := ⟨s.reg rm, s.reg rn⟩

/-- It: (x[Rm], zext_32(imm)) (30_encoding.md R69). -/
def itInput (rm : Reg) (imm : Imm) (s : State) : AluInput := ⟨s.reg rm, imm.setWidth 32⟩

/-- Ut: (x[Rm], 0). -/
def utInput (rm : Reg) (s : State) : AluInput := ⟨s.reg rm, 0⟩

/-- PUSH: (SP, −1). -/
def pushInput (s : State) : AluInput := ⟨s.reg spReg, 0xFFFFFFFF#32⟩

/-- POP: (SP, +1). -/
def popInput (s : State) : AluInput := ⟨s.reg spReg, 1⟩

/-- Steps 6 and 7 of an instruction with the default writeback: the PSR is replaced, then x[Rd] <- result (R85,
R103). -/
def aluWriteback (op : AluOp) (x : AluInput) (rd : Reg) (s : State) : Answer :=
  if aluStuck s.cfg.shiftPolicy op x.b then .fault (.shiftAmountOpen x.b)
  else
    let r := alu s.cfg.shiftPolicy op x.a x.b
    .next ((s.setPsr r.flags).setReg rd r.result)

/-- A jump: the absolute word address zext_32(imm), unchecked here (44_control.md R170). -/
def jumpIf (taken : Bool) (imm : Imm) (s : State) : Answer :=
  .next (if taken then s.setReg pcReg (imm.setWidth 32) else s)

end Sys2Proof.Machine
end

