-- ==== Sys2Proof/Machine/Arith.lean ====
section
/-! DEFINITION. The arithmetic instructions (41_alu_instructions.md R120 to R127). -/
namespace Sys2Proof.Machine

/-- ADD Rd, Rm, Rn (41_alu_instructions.md R120). -/
def execAdd (rd rm rn : Reg) (s : State) : Answer := aluWriteback .add (rtInput rm rn s) rd s

/-- ADDI Rd, Rm, #imm (41_alu_instructions.md R121). -/
def execAddi (rd rm : Reg) (imm : Imm) (s : State) : Answer := aluWriteback .add (itInput rm imm s) rd s

/-- UMUL Rd, Rm, Rn (41_alu_instructions.md R122). -/
def execUmul (rd rm rn : Reg) (s : State) : Answer := aluWriteback .umul (rtInput rm rn s) rd s

/-- UMULI Rd, Rm, #imm (41_alu_instructions.md R123). -/
def execUmuli (rd rm : Reg) (imm : Imm) (s : State) : Answer := aluWriteback .umul (itInput rm imm s) rd s

/-- UDIV Rd, Rm, Rn (41_alu_instructions.md R124). -/
def execUdiv (rd rm rn : Reg) (s : State) : Answer := aluWriteback .udiv (rtInput rm rn s) rd s

/-- UDIVI Rd, Rm, #imm (41_alu_instructions.md R125). -/
def execUdivi (rd rm : Reg) (imm : Imm) (s : State) : Answer := aluWriteback .udiv (itInput rm imm s) rd s

/-- UMOL Rd, Rm, Rn (41_alu_instructions.md R126). -/
def execUmol (rd rm rn : Reg) (s : State) : Answer := aluWriteback .umol (rtInput rm rn s) rd s

/-- UMOLI Rd, Rm, #imm (41_alu_instructions.md R127). -/
def execUmoli (rd rm : Reg) (imm : Imm) (s : State) : Answer := aluWriteback .umol (itInput rm imm s) rd s

end Sys2Proof.Machine
end

