-- ==== Sys2Proof/Machine/Bitwise.lean ====
section
/-! DEFINITION. The bitwise, shift and rotate instructions (41_alu_instructions.md R128 to R141). -/
namespace Sys2Proof.Machine

/-- AND Rd, Rm, Rn (41_alu_instructions.md R128). -/
def execAnd (rd rm rn : Reg) (s : State) : Answer := aluWriteback .and (rtInput rm rn s) rd s

/-- ANDI Rd, Rm, #imm (41_alu_instructions.md R129). -/
def execAndi (rd rm : Reg) (imm : Imm) (s : State) : Answer := aluWriteback .and (itInput rm imm s) rd s

/-- ORR Rd, Rm, Rn (41_alu_instructions.md R130). -/
def execOrr (rd rm rn : Reg) (s : State) : Answer := aluWriteback .orr (rtInput rm rn s) rd s

/-- ORRI Rd, Rm, #imm (41_alu_instructions.md R131). -/
def execOrri (rd rm : Reg) (imm : Imm) (s : State) : Answer := aluWriteback .orr (itInput rm imm s) rd s

/-- XOR Rd, Rm, Rn (41_alu_instructions.md R132). -/
def execXor (rd rm rn : Reg) (s : State) : Answer := aluWriteback .xor (rtInput rm rn s) rd s

/-- XORI Rd, Rm, #imm (41_alu_instructions.md R133). -/
def execXori (rd rm : Reg) (imm : Imm) (s : State) : Answer := aluWriteback .xor (itInput rm imm s) rd s

/-- SHL Rd, Rm, Rn (41_alu_instructions.md R134). -/
def execShl (rd rm rn : Reg) (s : State) : Answer := aluWriteback .shl (rtInput rm rn s) rd s

/-- SHLI Rd, Rm, #imm (41_alu_instructions.md R135). -/
def execShli (rd rm : Reg) (imm : Imm) (s : State) : Answer := aluWriteback .shl (itInput rm imm s) rd s

/-- SHR Rd, Rm, Rn (41_alu_instructions.md R136). -/
def execShr (rd rm rn : Reg) (s : State) : Answer := aluWriteback .shr (rtInput rm rn s) rd s

/-- SHRI Rd, Rm, #imm (41_alu_instructions.md R137). -/
def execShri (rd rm : Reg) (imm : Imm) (s : State) : Answer := aluWriteback .shr (itInput rm imm s) rd s

/-- RTL Rd, Rm, Rn (41_alu_instructions.md R138). -/
def execRtl (rd rm rn : Reg) (s : State) : Answer := aluWriteback .rtl (rtInput rm rn s) rd s

/-- RTLI Rd, Rm, #imm (41_alu_instructions.md R139). -/
def execRtli (rd rm : Reg) (imm : Imm) (s : State) : Answer := aluWriteback .rtl (itInput rm imm s) rd s

/-- RTR Rd, Rm, Rn (41_alu_instructions.md R140). -/
def execRtr (rd rm rn : Reg) (s : State) : Answer := aluWriteback .rtr (rtInput rm rn s) rd s

/-- RTRI Rd, Rm, #imm (41_alu_instructions.md R141). -/
def execRtri (rd rm : Reg) (imm : Imm) (s : State) : Answer := aluWriteback .rtr (itInput rm imm s) rd s

end Sys2Proof.Machine
end

