-- ==== Sys2Proof/Machine/Control.lean ====
section
/-! DEFINITION. The jumps (44_control.md R170 to R176) and the terminator (40_cycle_alu.md R82). -/
namespace Sys2Proof.Machine

/-- JMP #imm (R171). -/
def execJmp (imm : Imm) (s : State) : Answer := jumpIf true imm s

/-- JZ #imm (R172). -/
def execJz (imm : Imm) (s : State) : Answer := jumpIf s.psr.z imm s

/-- JN #imm (R173). -/
def execJn (imm : Imm) (s : State) : Answer := jumpIf s.psr.n imm s

/-- JC #imm (R174). -/
def execJc (imm : Imm) (s : State) : Answer := jumpIf s.psr.c imm s

/-- JV #imm (R175). -/
def execJv (imm : Imm) (s : State) : Answer := jumpIf s.psr.v imm s

/-- JZN #imm (R176). -/
def execJzn (imm : Imm) (s : State) : Answer := jumpIf (s.psr.z || s.psr.n) imm s

/-- The terminator: status <- Halted and nothing else (40_cycle_alu.md R82, 60_exceptions.md R208; log 10). -/
def execHalt (s : State) : Answer := .next { s with status := .halted }

end Sys2Proof.Machine
end

