-- ==== Sys2Proof/Machine/Stack.lean ====
section
/-! DEFINITION. PUSH and POP (43_stack.md): the new SP comes from ADD, whose flags replace the PSR. -/
namespace Sys2Proof.Machine

/-- SP − 1 and the flags of that addition (R160). -/
def pushPointer (s : State) : AluResult := alu s.cfg.shiftPolicy .add (pushInput s).a (pushInput s).b

/-- SP + 1 and the flags of that addition (R161). -/
def popPointer (s : State) : AluResult := alu s.cfg.shiftPolicy .add (popInput s).a (popInput s).b

/-- PUSH Rd (R160): x[Rd] is read before SP changes. The access check cannot fail on a valid map (log 12). -/
def execPush (rd : Reg) (s : State) : Answer :=
  let p := pushPointer s
  let s1 := s.setPsr p.flags
  if s1.inSS p.result then
    match s1.memWrite p.result.toNat (s1.reg rd) with
    | some s2 => .next (s2.setReg spReg p.result)
    | none => raise (.addressOutOfRange p.result.toNat) s1
  else raise (.stackOverflow p.result) s1

/-- POP Rd (R161): the check on new − 1, the source's own (D31); an underflow changes nothing more. SP is written after
x[Rd]. The access check cannot fail on a valid map (log 12). -/
def execPop (rd : Reg) (s : State) : Answer :=
  let p := popPointer s
  let s1 := s.setPsr p.flags
  if s1.inSS (p.result - 1) then
    match s1.memRead (s1.reg spReg).toNat with
    | some v => .next ((s1.setReg rd v).setReg spReg p.result)
    | none => raise (.addressOutOfRange (s1.reg spReg).toNat) s1
  else .next s1

end Sys2Proof.Machine
end

