-- ==== Sys2Proof/Machine/Syscall.lean ====
section
/-! DEFINITION. SYSCALL and the three handlers behind the syscall port (44_control.md R177 to R181). They write no
register and no flag (R178). -/
namespace Sys2Proof.Machine

/-- Bytes to the console output. -/
def State.emit (s : State) (bs : List Byte) : State := { s with consoleOut := s.consoleOut ++ bs }

/-- Syscall 0: the GREETING parameter (R179). -/
def welcome (s : State) : Answer := .next (s.emit s.cfg.greeting)

/-- The loop of syscall 1: n characters from address a on, each the low byte of a word; a failing read ends the run
(R180). The address does not wrap (D30). -/
def emitWords : Nat → Nat → State → Answer
  | 0, _, s => .next s
  | n + 1, a, s =>
    match s.memRead a with
    | some w => emitWords n (a + 1) (s.emit [w.setWidth 8])
    | none => raise (.addressOutOfRange a) s

/-- Syscall 1: x[1] characters from x[0] on (R180). -/
def consoleOutCall (s : State) : Answer := emitWords (s.reg 1).toNat (s.reg 0).toNat s

/-- CONSOLE_IN.readLine(): the oldest supplied line, or a free line when none is left. DESIGN CHOICE (log 5). -/
def State.readLine (s : State) : List Byte × State :=
  match s.consoleIn with
  | l :: rest => (l, { s with consoleIn := rest })
  | [] => (Config.freeLine s.freeLines, { s with freeLines := s.freeLines + 1 })

/-- The loop of syscall 2: each byte zero-extended into one word, from address a on (R181; log 24). The words before
a failing address stay written (60_exceptions.md R212). -/
def storeBytes : List Byte → Nat → State → Answer
  | [], _, s => .next s
  | b :: rest, a, s =>
    match s.memWrite a (b.setWidth 32) with
    | some s1 => storeBytes rest (a + 1) s1
    | none => raise (.addressOutOfRange a) s

/-- Syscall 2: one line into memory from x[0] on; its length is checked against x[1] before any write (R181). The line
is read, hence taken from the input, before the check (log 18). -/
def consoleInCall (s : State) : Answer :=
  let (line, s1) := s.readLine
  if (s1.reg 1).toNat < line.length then raise (.syscallOverflow line.length) s1
  else storeBytes line (s1.reg 0).toNat s1

/-- SYSCALL #imm (R177). -/
def execSyscall (imm : Imm) (s : State) : Answer :=
  if imm = 0 then welcome s
  else if imm = 1 then consoleOutCall s
  else if imm = 2 then consoleInCall s
  else raise (.unknownSyscall imm) s

end Sys2Proof.Machine
end

