-- ==== Sys2Proof/Machine/Unary.lean ====
section
/-! DEFINITION. NOT, LDR and STR (42_unary_memory.md). LDR and STR compute their address with PASS, so their flags
describe the address, and the PSR is written before the access. -/
namespace Sys2Proof.Machine

/-- NOT Rd, Rm (R150). -/
def execNot (rd rm : Reg) (s : State) : Answer := aluWriteback .comp (utInput rm s) rd s

/-- The effective address of LDR and STR, x[Rm] through PASS (R151, R152). -/
def effectiveAddress (rm : Reg) (s : State) : AluResult :=
  alu s.cfg.shiftPolicy .pass (utInput rm s).a (utInput rm s).b

/-- LDR Rd, [Rm] (R151). -/
def execLdr (rd rm : Reg) (s : State) : Answer :=
  let ea := effectiveAddress rm s
  let s1 := s.setPsr ea.flags
  match s1.memRead ea.result.toNat with
  | some v => .next (s1.setReg rd v)
  | none => raise (.addressOutOfRange ea.result.toNat) s1

/-- STR Rd, [Rm] (R152). -/
def execStr (rd rm : Reg) (s : State) : Answer :=
  let ea := effectiveAddress rm s
  let s1 := s.setPsr ea.flags
  match s1.memWrite ea.result.toNat (s1.reg rd) with
  | some s2 => .next s2
  | none => raise (.addressOutOfRange ea.result.toNat) s1

end Sys2Proof.Machine
end

