-- ==== Sys2Proof/Machine/Dispatch.lean ====
section
/-! DEFINITION. One arm per instruction: its effect on the state after fetch (40_cycle_alu.md R80). -/
namespace Sys2Proof.Machine

def exec (i : Instr) (s : State) : Host.Outcome State Fault Refusal :=
  match i with
  | .add rd rm rn => Sys2Proof.Machine.execAdd rd rm rn s
  | .addi rd rm imm => Sys2Proof.Machine.execAddi rd rm imm s
  | .umul rd rm rn => Sys2Proof.Machine.execUmul rd rm rn s
  | .umuli rd rm imm => Sys2Proof.Machine.execUmuli rd rm imm s
  | .udiv rd rm rn => Sys2Proof.Machine.execUdiv rd rm rn s
  | .udivi rd rm imm => Sys2Proof.Machine.execUdivi rd rm imm s
  | .umol rd rm rn => Sys2Proof.Machine.execUmol rd rm rn s
  | .umoli rd rm imm => Sys2Proof.Machine.execUmoli rd rm imm s
  | .and rd rm rn => Sys2Proof.Machine.execAnd rd rm rn s
  | .andi rd rm imm => Sys2Proof.Machine.execAndi rd rm imm s
  | .orr rd rm rn => Sys2Proof.Machine.execOrr rd rm rn s
  | .orri rd rm imm => Sys2Proof.Machine.execOrri rd rm imm s
  | .xor rd rm rn => Sys2Proof.Machine.execXor rd rm rn s
  | .xori rd rm imm => Sys2Proof.Machine.execXori rd rm imm s
  | .shl rd rm rn => Sys2Proof.Machine.execShl rd rm rn s
  | .shli rd rm imm => Sys2Proof.Machine.execShli rd rm imm s
  | .shr rd rm rn => Sys2Proof.Machine.execShr rd rm rn s
  | .shri rd rm imm => Sys2Proof.Machine.execShri rd rm imm s
  | .rtl rd rm rn => Sys2Proof.Machine.execRtl rd rm rn s
  | .rtli rd rm imm => Sys2Proof.Machine.execRtli rd rm imm s
  | .rtr rd rm rn => Sys2Proof.Machine.execRtr rd rm rn s
  | .rtri rd rm imm => Sys2Proof.Machine.execRtri rd rm imm s
  | .not rd rm => Sys2Proof.Machine.execNot rd rm s
  | .ldr rd rm => Sys2Proof.Machine.execLdr rd rm s
  | .str rd rm => Sys2Proof.Machine.execStr rd rm s
  | .push rd => Sys2Proof.Machine.execPush rd s
  | .pop rd => Sys2Proof.Machine.execPop rd s
  | .jmp imm => Sys2Proof.Machine.execJmp imm s
  | .jz imm => Sys2Proof.Machine.execJz imm s
  | .jn imm => Sys2Proof.Machine.execJn imm s
  | .jc imm => Sys2Proof.Machine.execJc imm s
  | .jv imm => Sys2Proof.Machine.execJv imm s
  | .jzn imm => Sys2Proof.Machine.execJzn imm s
  | .syscall imm => Sys2Proof.Machine.execSyscall imm s
  | .halt => Sys2Proof.Machine.execHalt s

end Sys2Proof.Machine
end

