-- ==== Sys2Proof/Machine/Step.lean ====
section
/-! DEFINITION. One step of the machine (40_cycle_alu.md R80). -/
namespace Sys2Proof.Machine

/-- Fetch, terminator check and decode, execute, retire and trace (R80). A step exists only in Running (10_state.md
R33). The PC is advanced before anything else the instruction does (R81). -/
def step (s : State) : Host.Outcome State Fault Refusal :=
  if s.status = .running then
    match fetchWord s with
    | .error c => raise c s
    | .ok w =>
      match decode s.cfg.enc w with
      | .ok i => finish w (exec i s.advancePc)
      | .error (.unknownOpCode t c) => raise (.unknownOpCode t c) s.advancePc
  else .fault (.notRunning s.status)

/-- The state with a table word stored where the next step fetches. A machine that does not fetch yet is configured with
scenario S1's map first (log 14). -/
def State.withFetchWord (s : State) (nbits w : Nat) : State :=
  s.readyToFetch.setSlot (s.readyToFetch.reg pcReg).toNat (tableWord nbits w)

end Sys2Proof.Machine
end

