-- ==== Sys2Proof/Machine/Loader.lean ====
section
/-! DEFINITION. The program loader (70_reset_and_hazards.md R236 to R243) and the whole boot (R233). A file is a name
and its bytes; characters are ASCII bytes (log 15). -/
namespace Sys2Proof.Machine

/-- A binary file: its name, and its bytes when it is present. -/
structure BinFile where
  name : List Byte
  content : Option (List Byte)
deriving DecidableEq, Repr

/-- The loader's states (R238). -/
inductive LoaderMode where
  | start | ds | es | ts | dd | td
deriving DecidableEq, Repr

/-- What the loader has read: three ranges, the data words and the instruction words, oldest first. -/
structure LoaderImage where
  cs : Option SegRange
  ds : Option SegRange
  es : Option SegRange
  data : List Word
  text : List Word
deriving DecidableEq, Repr

/-- Cut at each LF (R237); the last line needs no terminator. -/
def splitLines : List Byte → List (List Byte)
  | [] => [[]]
  | b :: rest =>
    if b = 10 then [] :: splitLines rest
    else
      match splitLines rest with
      | l :: ls => (b :: l) :: ls
      | [] => [[b]]

/-- A CR before the LF belongs to the terminator (R237). -/
def dropCr (l : List Byte) : List Byte := if l.getLast? = some 13 then l.dropLast else l

/-- The lines of a file with their terminators, LF or CR LF, removed (R237). Every line but the last ends at an LF; a CR
at the end of the last one is no terminator and stays. -/
def dropTerminators : List (List Byte) → List (List Byte)
  | [] => []
  | [l] => [l]
  | l :: l' :: ls => dropCr l :: dropTerminators (l' :: ls)

/-- A line that is empty or holds only spaces and tabs (R237). -/
def isBlank (l : List Byte) : Bool := l.all (fun b => b == 32 || b == 9)

/-- A line that begins with ';' (R237). -/
def isComment (l : List Byte) : Bool := l.head? == some 59

/-- A marker stands alone on its line (R237, R238): ds, es, ts, dd, td. -/
def markerOf (l : List Byte) : Option LoaderMode :=
  if l = [100, 115] then some .ds
  else if l = [101, 115] then some .es
  else if l = [116, 115] then some .ts
  else if l = [100, 100] then some .dd
  else if l = [116, 100] then some .td
  else none

/-- The number written by decimal digits, most significant first, added to `acc`; none at another character. -/
def digitsFrom : Nat → List Byte → Option Nat
  | acc, [] => some acc
  | acc, b :: rest =>
    if 48 ≤ b.toNat ∧ b.toNat ≤ 57 then digitsFrom (acc * 10 + (b.toNat - 48)) rest else none

/-- A decimal integer from 0 to 2^32 − 1: one or more digits, leading zeros allowed (R240, R241). -/
def parseDecimal (l : List Byte) : Option Nat :=
  match l with
  | [] => none
  | b :: rest =>
    match digitsFrom 0 (b :: rest) with
    | some n => if n < 4294967296 then some n else none
    | none => none

/-- The text before the first space and the text after it. -/
def cutAtSpace : List Byte → Option (List Byte × List Byte)
  | [] => none
  | b :: rest =>
    if b = 32 then some ([], rest)
    else (cutAtSpace rest).map (fun p => (b :: p.1, p.2))

/-- A size line: two decimal integers separated by a space, start ≤ end (R240). -/
def parseSizes (l : List Byte) : Option SegRange :=
  match cutAtSpace l with
  | some (x, y) =>
    match parseDecimal x, parseDecimal y with
    | some a, some b => if a ≤ b then some ⟨a, b⟩ else none
    | _, _ => none
  | none => none

/-- The payload handler of a state (R238 to R241); none is a LoaderParse failure, a payload before any marker among
them. -/
def payload (mode : LoaderMode) (l : List Byte) (img : LoaderImage) : Option LoaderImage :=
  match mode with
  | .start => none
  | .ds => (parseSizes l).map (fun g => { img with ds := some g })
  | .es => (parseSizes l).map (fun g => { img with es := some g })
  | .ts => (parseSizes l).map (fun g => { img with cs := some g })
  | .dd => (parseDecimal l).map (fun n => { img with data := img.data ++ [BitVec.ofNat 32 n] })
  | .td => (parseDecimal l).map (fun n => { img with text := img.text ++ [BitVec.ofNat 32 n] })

/-- The lines in order: blank and comment lines ignored, a marker selects a state, anything else is a payload (R237,
R239). -/
def parseLines : List (List Byte) → LoaderMode → LoaderImage → Option LoaderImage
  | [], _, img => some img
  | l :: rest, mode, img =>
    if isBlank l || isComment l then parseLines rest mode img
    else
      match markerOf l with
      | some mode' => parseLines rest mode' img
      | none =>
        match payload mode l img with
        | some img' => parseLines rest mode img'
        | none => none

/-- The name ends in ".bin" (R236). -/
def nameIsBin (name : List Byte) : Bool := [46, 98, 105, 110].isSuffixOf name

/-- The loader's result on a file, none for LoaderParse (R236 to R241, R243). -/
def parseFile (f : BinFile) : Option LoaderImage :=
  if nameIsBin f.name then
    match f.content with
    | some bytes => parseLines (dropTerminators (splitLines bytes)) .start ⟨none, none, none, [], []⟩
    | none => none
  else none

/-- The largest end among parsed segments (R242). -/
def LoaderImage.maxEnd (img : LoaderImage) : Option Nat :=
  ([img.cs, img.ds, img.es].filterMap id).foldl
    (fun (m : Option Nat) g => some (match m with | some x => max x g.last | none => g.last)) none

/-- The map the loader hands to init: CS, DS, ES as parsed and SS = [maxEnd + 1, MEM_SIZE − 1] (R242). -/
def LoaderImage.request (img : LoaderImage) (memSize : Nat) : SegRequest where
  cs := img.cs
  ds := img.ds
  es := img.es
  ss := img.maxEnd.map (fun e => ⟨e + 1, memSize - 1⟩)

/-- The boot sequence: loader, init, loadInstructions, loadData (R233). -/
def bootFile (f : BinFile) (s : State) : Answer :=
  if s.status = .unconfigured then
    match parseFile f with
    | some img => bootImages (img.request s.cfg.memSize) img.text img.data s
    | none => raise .loaderParse s
  else .fault (.portClosed s.status)

end Sys2Proof.Machine
end

