-- ==== Sys2Proof/Safety.lean ====
section
/-! DEFINITION. The terms claims use: the invariant of the machine, what a frame leaves unchanged, and how a run ends. -/
namespace Sys2Proof.Machine

/-- The invariant every step keeps: the parameters are legal (00_scope.md R8, R9), memory is canonical and lists only
slots that exist (20_memory.md R40), a stored segment map satisfies R48, a machine that has been configured has a map
(10_state.md R33, R35), and N and Z are not both set (44_control.md R176). -/
structure Inv (s : State) : Prop where
  cfg : s.cfg.wf = true
  memCanonical : Memory.wf s.mem = true
  memInRange : ∀ e ∈ s.mem, e.1 < s.cfg.memSize
  segValid : ∀ m, s.seg = some m → m.wf s.cfg.memSize = true
  hasSeg : s.status = .running ∨ s.status = .halted → s.seg.isSome = true
  notBothNZ : ¬(s.psr.n = true ∧ s.psr.z = true)

/-- Every register outside `l` is unchanged. -/
def SameRegsBut (l : List Reg) (s t : State) : Prop := ∀ r, r ∉ l → t.reg r = s.reg r

/-- Every slot of memory reads as before. -/
def SameMemory (s t : State) : Prop := ∀ a, t.slot a = s.slot a

/-- Every slot but `a` reads as before. -/
def SameMemoryBut (a : Nat) (s t : State) : Prop := ∀ b, b ≠ a → t.slot b = s.slot b

/-- The segment map, the status, the retired count, the parameters and the tracer are unchanged. -/
structure SameControl (s t : State) : Prop where
  seg : t.seg = s.seg
  status : t.status = s.status
  retired : t.retired = s.retired
  cfg : t.cfg = s.cfg
  tracer : t.tracer = s.tracer

/-- The console streams and the model's free-line counter are unchanged. -/
structure SameStreams (s t : State) : Prop where
  consoleIn : t.consoleIn = s.consoleIn
  consoleOut : t.consoleOut = s.consoleOut
  freeLines : t.freeLines = s.freeLines

/-- The same state without a tracer (60_exceptions.md R223). -/
def State.untraced (s : State) : State := { s with tracer := none }

/-- The same fault without a tracer in the state it leaves. -/
def Fault.untraced : Fault → Fault
  | .fatal c left => .fatal c left.untraced
  | .notRunning st => .notRunning st
  | .shiftAmountOpen b => .shiftAmountOpen b
  | .portClosed st => .portClosed st

/-- The same answer without a tracer. -/
def Answer.untraced : Answer → Answer
  | .next t => .next t.untraced
  | .fault r => .fault r.untraced
  | .refused r => .refused r

/-- A run ends normally in t: the terminator was fetched (60_exceptions.md R208). Fuel running out is no end
(70_reset_and_hazards.md R251), and a fatal stop is none either (60_exceptions.md R212). -/
def EndsNormally (s t : State) : Prop :=
  ∃ k, Host.Core.run Sys2Proof.core k s = .next t ∧ t.status = .halted

end Sys2Proof.Machine
end

