-- ==== Sys2Proof/Certificates/Slice0/Obligations.lean ====
section
/-! DEFINITION. The statements for the provers, from the spec's numbered rules, and the predicates they share. exec runs on
the state after fetch, so its PC is the instruction's address plus one (40_cycle_alu.md R105). -/
namespace Sys2Proof.Machine

/-! ### Results in integer terms, independent of the model's own formulas -/

/-- N and Z of a result, C and V clear (40_cycle_alu.md R87). -/
def NzOf (r : Word) (f : Psr) : Prop :=
  (f.n = true ↔ 2147483648 ≤ r.toNat) ∧ (f.z = true ↔ r.toNat = 0) ∧ f.c = false ∧ f.v = false

/-- The sum and flags of ADD (40_cycle_alu.md R88): C is the carry out of bit 31, V the two's-complement overflow. -/
def AddOutcome (a b r : Word) (f : Psr) : Prop :=
  r.toNat = (a.toNat + b.toNat) % 4294967296 ∧
    (f.n = true ↔ 2147483648 ≤ r.toNat) ∧ (f.z = true ↔ r.toNat = 0) ∧
    (f.c = true ↔ 4294967296 ≤ a.toNat + b.toNat) ∧
    (f.v = true ↔ a.toInt + b.toInt < -2147483648 ∨ 2147483648 ≤ a.toInt + b.toInt)

/-- UMUL (R89). -/
def MulOutcome (a b r : Word) (f : Psr) : Prop := r.toNat = a.toNat * b.toNat % 4294967296 ∧ NzOf r f

/-- UDIV (R90): 0 and no flag, not even Z, when the divisor is 0. -/
def DivOutcome (a b r : Word) (f : Psr) : Prop :=
  (b.toNat = 0 → r.toNat = 0 ∧ f = ⟨false, false, false, false⟩) ∧
    (b.toNat ≠ 0 → r.toNat = a.toNat / b.toNat ∧ NzOf r f)

/-- UMOL (R91). -/
def ModOutcome (a b r : Word) (f : Psr) : Prop :=
  (b.toNat = 0 → r.toNat = 0 ∧ f = ⟨false, false, false, false⟩) ∧
    (b.toNat ≠ 0 → r.toNat = a.toNat % b.toNat ∧ NzOf r f)

/-- AND, ORR, XOR bit by bit (R93 to R95). -/
def BitsOutcome (op : Bool → Bool → Bool) (a b r : Word) (f : Psr) : Prop :=
  (∀ k, k < 32 → r.getLsbD k = op (a.getLsbD k) (b.getLsbD k)) ∧ NzOf r f

/-- SHL (R97, R99, D5): by 32 or more, 0 under zero_and_mod and B mod 32 places under mask_mod_32. -/
def ShlOutcome (p : ShiftPolicy) (a b r : Word) (f : Psr) : Prop :=
  (b.toNat < 32 → r.toNat = a.toNat * 2 ^ b.toNat % 4294967296) ∧
    (32 ≤ b.toNat → p = .zeroAndMod → r.toNat = 0) ∧
    (32 ≤ b.toNat → p = .maskMod32 → r.toNat = a.toNat * 2 ^ (b.toNat % 32) % 4294967296) ∧ NzOf r f

/-- SHR (R98, R99, D5). -/
def ShrOutcome (p : ShiftPolicy) (a b r : Word) (f : Psr) : Prop :=
  (b.toNat < 32 → r.toNat = a.toNat / 2 ^ b.toNat) ∧
    (32 ≤ b.toNat → p = .zeroAndMod → r.toNat = 0) ∧
    (32 ≤ b.toNat → p = .maskMod32 → r.toNat = a.toNat / 2 ^ (b.toNat % 32)) ∧ NzOf r f

/-- RTL (R100): bit k goes to bit (k + B) mod 32. -/
def RtlOutcome (a b r : Word) (f : Psr) : Prop :=
  (∀ k, k < 32 → r.getLsbD ((k + b.toNat) % 32) = a.getLsbD k) ∧ NzOf r f

/-- RTR (R101): bit (k + B) mod 32 goes to bit k. -/
def RtrOutcome (a b r : Word) (f : Psr) : Prop :=
  (∀ k, k < 32 → r.getLsbD k = a.getLsbD ((k + b.toNat) % 32)) ∧ NzOf r f

/-! ### Shapes of an instruction's effect -/

/-- The instruction answers a next state in which x[rd] and the PSR are related as R says, and nothing else differs. -/
def Writes (i : Instr) (rd : Reg) (s : State) (R : Word → Psr → Prop) : Prop :=
  ∃ t, exec i s = .next t ∧ R (t.reg rd) t.psr ∧ SameRegsBut [rd] s t ∧ SameMemory s t ∧ SameControl s t ∧
    SameStreams s t

/-- The instruction answers a next state that differs at most in the PC, which is imm when taken. -/
def JumpsTo (i : Instr) (taken : Prop) (imm : Imm) (s : State) : Prop :=
  ∃ t, exec i s = .next t ∧ (taken → (t.reg pcReg).toNat = imm.toNat) ∧ (¬taken → t.reg pcReg = s.reg pcReg) ∧
    SameRegsBut [pcReg] s t ∧ t.psr = s.psr ∧ SameMemory s t ∧ SameControl s t ∧ SameStreams s t

/-- The instruction stops the run with this cause; in the state left the status is that of the cause, every register and
every slot is as before, so are the count, the map and the parameters, and R says how the PSR and the streams stand. The
tracer is FatalStopIsTerminal's. -/
def StopsWith (i : Instr) (c : Cause) (s : State) (R : State → Prop) : Prop :=
  ∃ left, exec i s = .fault (.fatal c left) ∧ R left ∧ SameRegsBut [] s left ∧ SameMemory s left ∧
    left.status = .fatal c.kind ∧ left.retired = s.retired ∧ left.seg = s.seg ∧ left.cfg = s.cfg

/-- The shift or rotate has a next state: SHIFT_POLICY is not fault, or the amount is below 32 (R99, D5). -/
def MayShift (s : State) (b : Word) : Prop := s.cfg.shiftPolicy ≠ .fault ∨ b.toNat < 32

/-- The stack segment holds the address, and lies in memory (20_memory.md R47, R48). -/
def InStack (s : State) (m : SegMap) (a : Nat) : Prop :=
  s.seg = some m ∧ m.ss.start.toNat ≤ a ∧ a ≤ m.ss.last.toNat ∧ m.ss.last.toNat < s.cfg.memSize

/-- The stack segment does not hold the address. -/
def NotInStack (s : State) (m : SegMap) (a : Nat) : Prop :=
  s.seg = some m ∧ (a < m.ss.start.toNat ∨ m.ss.last.toNat < a)

/-- Whether an instruction writes PC itself: a jump, or a destination register 15 (10_state.md R26). -/
def writesPc : Instr → Prop
  | .add rd _ _ | .umul rd _ _ | .udiv rd _ _ | .umol rd _ _ | .and rd _ _ | .orr rd _ _ | .xor rd _ _
  | .shl rd _ _ | .shr rd _ _ | .rtl rd _ _ | .rtr rd _ _ => rd = pcReg
  | .addi rd _ _ | .umuli rd _ _ | .udivi rd _ _ | .umoli rd _ _ | .andi rd _ _ | .orri rd _ _ | .xori rd _ _
  | .shli rd _ _ | .shri rd _ _ | .rtli rd _ _ | .rtri rd _ _ => rd = pcReg
  | .not rd _ | .ldr rd _ | .pop rd => rd = pcReg
  | .jmp _ | .jz _ | .jn _ | .jc _ | .jv _ | .jzn _ => True
  | .str _ _ | .push _ | .syscall _ | .halt => False

/-- A J-type instruction, or the terminator: no ALU pass (44_control.md R170). -/
def isJumpOrHalt : Instr → Prop
  | .jmp _ | .jz _ | .jn _ | .jc _ | .jv _ | .jzn _ | .syscall _ | .halt => True
  | _ => False

/-- An instruction whose ALU operation is ADD. -/
def usesAdd : Instr → Prop
  | .add _ _ _ | .addi _ _ _ | .push _ | .pop _ => True
  | _ => False

/-- The fetch of the next step succeeds and reads w (40_cycle_alu.md R81). -/
def Fetches (s : State) (w : Word) : Prop :=
  s.status = .running ∧ ∃ m, s.seg = some m ∧ m.cs.start.toNat ≤ (s.reg pcReg).toNat ∧
    (s.reg pcReg).toNat ≤ m.cs.last.toNat ∧ (s.reg pcReg).toNat < s.cfg.memSize ∧ w = s.slot (s.reg pcReg).toNat

/-- The record the tracer is offered for a retired instruction whose word is w, t being the state after its writeback
(60_exceptions.md R219). -/
def recordOf (w : Word) (t : State) : TraceRecord where
  count := t.retired + 1
  word := w
  decoded := Fields.ofWord w
  mem := t.mem
  regs := t.regs
  psr := t.psr
  seg := t.seg

/-- A range with start ≤ end and end < n (70_reset_and_hazards.md R230). -/
def FitsBelow (n : Nat) (g : SegRange) : Prop := g.start ≤ g.last ∧ g.last < n

/-- Two ranges with no address in both. -/
def NoOverlap (g h : SegRange) : Prop := g.last < h.start ∨ h.last < g.start

/-- R230's checks on four present ranges, in numbers: each range fits and no two overlap. Its fourth check, on the sum of
the sizes, follows (20_memory.md R48). -/
def LegalRanges (n : Nat) (cs ds ss es : SegRange) : Prop :=
  FitsBelow n cs ∧ FitsBelow n ds ∧ FitsBelow n ss ∧ FitsBelow n es ∧ NoOverlap cs ds ∧ NoOverlap cs ss ∧
    NoOverlap cs es ∧ NoOverlap ds ss ∧ NoOverlap ds es ∧ NoOverlap ss es

/-- A load answers a next state that holds the image from the start of g on, and differs in nothing else. -/
def Loads (o : Answer) (image : List Word) (g : Segment) (s : State) : Prop :=
  ∃ t, o = .next t ∧ (∀ k v, image[k]? = some v → t.slot (g.start.toNat + k) = v) ∧
    (∀ a, a < g.start.toNat ∨ g.start.toNat + image.length ≤ a → t.slot a = s.slot a) ∧ SameRegsBut [] s t ∧
    t.psr = s.psr ∧ SameControl s t ∧ SameStreams s t

/-- The value of a string of decimal digits. -/
def decimalValue (l : List Byte) : Nat := l.foldl (fun n b => n * 10 + (b.toNat - 48)) 0

/-- A character '0' to '9'. -/
def isDigit (b : Byte) : Prop := 48 ≤ b.toNat ∧ b.toNat ≤ 57

end Sys2Proof.Machine

open Sys2Proof Sys2Proof.Machine

/-! ### Encoding -/

/-- Decode and encode agree, under every legal pair of encoding tables (30_encoding.md R71). That HALT is among the
instructions is the model's form (log 10). -/
def Obligations.DecodeOfEncodeIsIdentity : Prop :=
  ∀ e : Encoding, e.wf = true → ∀ i : Instr, decode e (encode e i) = .ok i

/-- Encoding is the inverse of field extraction (R71): the word of the fields with imm in bits 31 to 20, the word of an Rt
form with Rn in bits 23 to 20, and that every bit of a word lies in a field. -/
def Obligations.WordRebuiltFromFields : Prop :=
  (∀ d : Fields, d.toWord =
      d.type.setWidth 32 ||| (d.code.setWidth 32 <<< 4) ||| (BitVec.ofNat 32 d.rd.val <<< 12) |||
        (BitVec.ofNat 32 d.rm.val <<< 16) ||| (d.imm.setWidth 32 <<< 20)) ∧
    (∀ (e : Encoding) (c : OpCode) (rd rm rn : Reg), encodeRt e c rd rm rn =
      (e.typeOf .rt).setWidth 32 ||| ((e.codeOf c).setWidth 32 <<< 4) ||| (BitVec.ofNat 32 rd.val <<< 12) |||
        (BitVec.ofNat 32 rm.val <<< 16) ||| (BitVec.ofNat 32 rn.val <<< 20)) ∧
    ∀ w : Word, (Fields.ofWord w).toWord = w

/-- The fields are the bits R61 names, and Rn is the low nibble of imm (R62). -/
def Obligations.FieldsAreTheNamedBits : Prop :=
  ∀ w : Word,
    (Fields.ofWord w).type.toNat = w.toNat % 16 ∧
    (Fields.ofWord w).code.toNat = w.toNat / 16 % 256 ∧
    (Fields.ofWord w).rd.val = w.toNat / 4096 % 16 ∧
    (Fields.ofWord w).rm.val = w.toNat / 65536 % 16 ∧
    (Fields.ofWord w).rn.val = w.toNat / 1048576 % 16 ∧
    (Fields.ofWord w).imm.toNat = w.toNat / 1048576 ∧
    (Fields.ofWord w).rn.val = (Fields.ofWord w).imm.toNat % 16

/-- The whole opcode map (R75): a word is the instruction of the row its low twelve bits match; any other word is rejected. -/
def Obligations.OpcodeMapDecidesEveryWord : Prop :=
  ∀ w : Word, w ≠ 0xFFFFFFFF#32 →
    decode Encoding.standard w =
      match w.toNat % 4096, Fields.ofWord w with
      | 0x061, d => .ok (.add d.rd d.rm d.rn)
      | 0x060, d => .ok (.addi d.rd d.rm d.imm)
      | 0x071, d => .ok (.umul d.rd d.rm d.rn)
      | 0x070, d => .ok (.umuli d.rd d.rm d.imm)
      | 0x081, d => .ok (.udiv d.rd d.rm d.rn)
      | 0x080, d => .ok (.udivi d.rd d.rm d.imm)
      | 0x091, d => .ok (.umol d.rd d.rm d.rn)
      | 0x090, d => .ok (.umoli d.rd d.rm d.imm)
      | 0x0A1, d => .ok (.and d.rd d.rm d.rn)
      | 0x0A0, d => .ok (.andi d.rd d.rm d.imm)
      | 0x0B1, d => .ok (.orr d.rd d.rm d.rn)
      | 0x0B0, d => .ok (.orri d.rd d.rm d.imm)
      | 0x0C1, d => .ok (.xor d.rd d.rm d.rn)
      | 0x0C0, d => .ok (.xori d.rd d.rm d.imm)
      | 0x0D1, d => .ok (.shl d.rd d.rm d.rn)
      | 0x0D0, d => .ok (.shli d.rd d.rm d.imm)
      | 0x0E1, d => .ok (.shr d.rd d.rm d.rn)
      | 0x0E0, d => .ok (.shri d.rd d.rm d.imm)
      | 0x0F1, d => .ok (.rtl d.rd d.rm d.rn)
      | 0x0F0, d => .ok (.rtli d.rd d.rm d.imm)
      | 0x101, d => .ok (.rtr d.rd d.rm d.rn)
      | 0x100, d => .ok (.rtri d.rd d.rm d.imm)
      | 0x112, d => .ok (.not d.rd d.rm)
      | 0x122, d => .ok (.ldr d.rd d.rm)
      | 0x132, d => .ok (.str d.rd d.rm)
      | 0x143, d => .ok (.push d.rd)
      | 0x153, d => .ok (.pop d.rd)
      | 0x004, d => .ok (.jmp d.imm)
      | 0x014, d => .ok (.jz d.imm)
      | 0x024, d => .ok (.jn d.imm)
      | 0x034, d => .ok (.jc d.imm)
      | 0x044, d => .ok (.jv d.imm)
      | 0x054, d => .ok (.jzn d.imm)
      | 0x164, d => .ok (.syscall d.imm)
      | _, d => .error (.unknownOpCode d.type d.code)

/-- The bits a format ignores do not matter (R66, R67), under every legal pair of tables. -/
def Obligations.IgnoredBitsDoNotMatter : Prop :=
  ∀ e : Encoding, e.wf = true → ∀ w v : Word, w ≠ 0xFFFFFFFF#32 → v ≠ 0xFFFFFFFF#32 →
    (Fields.ofWord w).type = (Fields.ofWord v).type → (Fields.ofWord w).code = (Fields.ofWord v).code →
    ((Fields.ofWord w).type = e.typeOf .rt → w.toNat % 16777216 = v.toNat % 16777216 → decode e w = decode e v) ∧
    ((Fields.ofWord w).type = e.typeOf .ut → w.toNat % 1048576 = v.toNat % 1048576 → decode e w = decode e v) ∧
    ((Fields.ofWord w).type = e.typeOf .st → w.toNat % 65536 = v.toNat % 65536 → decode e w = decode e v) ∧
    ((Fields.ofWord w).type = e.typeOf .jt → w.toNat / 1048576 = v.toNat / 1048576 → decode e w = decode e v)

/-- Nine words written out in the spec decode as it says, and the terminator word decodes to HALT. A sanity statement. The
HALT clause is the model's form, not the spec's, which says that the terminator is never decoded (log 10). -/
def Obligations.SpecWordsDecode : Prop :=
  decodeTableWord 32 0x00111060 = some (.addi 1 1 1) ∧
    decodeTableWord 32 0x00213061 = some (.add 3 1 2) ∧
    decodeTableWord 32 0xFFF240A0 = some (.andi 4 2 0xFFF) ∧
    decodeTableWord 32 0x00000112 = some (.not 0 0) ∧
    decodeTableWord 32 0x00005153 = some (.pop 5) ∧
    decodeTableWord 32 0x00A00014 = some (.jz 10) ∧
    decodeTableWord 32 0xFFFFFFFF = some .halt ∧
    decodeTableWord 32 0xABC00143 = some (.push 0) ∧
    decodeTableWord 32 0x00000121 = none ∧ decodeTableWord 32 0x00000000 = none

/-! ### The step -/

/-- A step runs the decoded instruction (40_cycle_alu.md R80): exec on the state with the PC advanced; a running result
retires, is counted and is offered to the tracer; a halted one is neither; a fault is the step's fault. -/
def Obligations.StepRunsTheDecodedInstruction : Prop :=
  ∀ (s : State) (w : Word) (i : Instr), Fetches s w → decode s.cfg.enc w = .ok i →
    let s1 := s.setReg pcReg (s.reg pcReg + 1)
    (∀ t, exec i s1 = .next t → t.status = .running →
      step s = .next { t with
        retired := t.retired + 1
        tracer := t.tracer.map (fun x => x.put (.record (recordOf w t))) }) ∧
    (∀ t, exec i s1 = .next t → t.status ≠ .running → step s = .next t) ∧
    (∀ r, exec i s1 = .fault r → step s = .fault r)

/-- A step of a running machine whose PC is not in CS is fatal and changes nothing else (R81, 60_exceptions.md R203). -/
def Obligations.PcOutsideCodeSegmentIsFatal : Prop :=
  ∀ (s : State) (m : SegMap), s.status = .running → s.seg = some m →
    ((s.reg pcReg).toNat < m.cs.start.toNat ∨ m.cs.last.toNat < (s.reg pcReg).toNat) →
    ∃ left, step s = .fault (.fatal (.pcOutOfCS (s.reg pcReg)) left) ∧ left.status = .fatal .pcOutOfCS ∧
      SameRegsBut [] s left ∧ left.psr = s.psr ∧ SameMemory s left ∧ left.retired = s.retired ∧ left.seg = s.seg ∧
      left.cfg = s.cfg ∧ SameStreams s left

/-- Fetching the terminator halts (R82): the PC is one past it and nothing else has changed; it is not retired and not
traced. -/
def Obligations.TerminatorHaltsTheRun : Prop :=
  ∀ s : State, Fetches s 0xFFFFFFFF#32 →
    ∃ t, step s = .next t ∧ t.status = .halted ∧ (t.reg pcReg).toNat = ((s.reg pcReg).toNat + 1) % 4294967296 ∧
      SameRegsBut [pcReg] s t ∧ t.psr = s.psr ∧ SameMemory s t ∧ t.seg = s.seg ∧ t.retired = s.retired ∧
      t.cfg = s.cfg ∧ t.tracer = s.tracer ∧ SameStreams s t

/-- A word that is no instruction is fatal (R84, 60_exceptions.md R205, R212): only the PC and the status differ, the tracer
apart. -/
def Obligations.IllegalWordIsFatal : Prop :=
  ∀ (s : State) (w : Word) (ty : BitVec 4) (c : BitVec 8), Fetches s w →
    decode s.cfg.enc w = .error (.unknownOpCode ty c) →
    ty = (Fields.ofWord w).type ∧ c = (Fields.ofWord w).code ∧
    ∃ left, step s = .fault (.fatal (.unknownOpCode ty c) left) ∧ left.status = .fatal .unknownOpCode ∧
      (left.reg pcReg).toNat = ((s.reg pcReg).toNat + 1) % 4294967296 ∧ SameRegsBut [pcReg] s left ∧
      left.psr = s.psr ∧ SameMemory s left ∧ left.retired = s.retired ∧ left.seg = s.seg ∧ left.cfg = s.cfg ∧
      SameStreams s left

/-- A step exists only in Running (10_state.md R33), and a fatal kind is terminal (60_exceptions.md R200): the state left
has the status of the cause, its tracer's log, if open, ends in the ERROR entry and is closed, the instruction is not
counted, and no step follows. -/
def Obligations.FatalStopIsTerminal : Prop :=
  (∀ s : State, s.status ≠ .running → step s = .fault (.notRunning s.status)) ∧
  ∀ (s left : State) (c : Cause), step s = .fault (.fatal c left) →
    left.status = .fatal c.kind ∧ left.retired = s.retired ∧ left.seg = s.seg ∧ left.cfg = s.cfg ∧
      (∀ x, s.tracer = some x → x.isOpen = true →
        left.tracer = some ⟨x.log ++ [.error c.kind], false⟩) ∧
      step left = .fault (.notRunning (.fatal c.kind))

/-- SegmentMisconfig and LoaderParse cannot occur in a step (60_exceptions.md R207). -/
def Obligations.NoBootKindInAStep : Prop :=
  ∀ (s left : State) (c : Cause), step s = .fault (.fatal c left) →
    c.kind ≠ .segmentMisconfig ∧ c.kind ≠ .loaderParse

/-- Under the invariant only LDR, STR and SYSCALL raise AddressOutOfRange: fetch, PUSH and POP cannot (60_exceptions.md
R202). -/
def Obligations.OnlyLoadStoreSyscallLeaveMemory : Prop :=
  ∀ (s left : State) (a : Nat), Inv s → step s = .fault (.fatal (.addressOutOfRange a) left) →
    ∃ w i, Fetches s w ∧ decode s.cfg.enc w = .ok i ∧
      ((∃ rd rm, i = .ldr rd rm) ∨ (∃ rd rm, i = .str rd rm) ∨ ∃ n, i = .syscall n)

/-- Every step keeps the invariant. -/
def Obligations.EveryStepKeepsTheInvariant : Prop :=
  ∀ s t : State, Inv s → step s = .next t → Inv t

/-- The state after reset has the invariant. -/
def Obligations.ResetHasTheInvariant : Prop := Inv State.reset

/-- Running with and without a tracer gives the same states and the same stops (60_exceptions.md R223). -/
def Obligations.TracerDoesNotChangeTheRun : Prop :=
  ∀ s : State, step s.untraced = Answer.untraced (step s)

/-- An open tracer gets exactly one record per retired instruction, taken after its writeback and counting it
(60_exceptions.md R219, 10_state.md R34), and none for the terminator (40_cycle_alu.md R82). -/
def Obligations.OneRecordPerRetiredInstruction : Prop :=
  ∀ (s t : State) (x : Tracer), step s = .next t → s.tracer = some x → x.isOpen = true →
    (t.status = .running →
      ∃ r, t.tracer = some ⟨x.log ++ [.record r], true⟩ ∧ r.count = s.retired + 1 ∧ r.count = t.retired ∧
        r.word = s.slot (s.reg pcReg).toNat ∧ r.decoded = Fields.ofWord r.word ∧ r.mem = t.mem ∧ r.regs = t.regs ∧
        r.psr = t.psr ∧ r.seg = t.seg) ∧
    (t.status = .halted → t.tracer = s.tracer)

/-- A step either retires one instruction and goes on, or fetched the terminator, halts and retires none. -/
def Obligations.RetiredCountsEachInstruction : Prop :=
  ∀ s t : State, step s = .next t →
    (t.status = .running ∧ t.retired = s.retired + 1 ∧ s.slot (s.reg pcReg).toNat ≠ 0xFFFFFFFF#32) ∨
      (t.status = .halted ∧ t.retired = s.retired ∧ s.slot (s.reg pcReg).toNat = 0xFFFFFFFF#32)

/-- No step writes the segment map or a parameter (10_state.md R32, 00_scope.md R9). -/
def Obligations.SegmentMapAndParametersAreFixed : Prop :=
  ∀ s t : State, step s = .next t → t.seg = s.seg ∧ t.cfg = s.cfg

/-- Fetch advances the PC by one on every instruction that does not itself write the PC (10_state.md R26, 90 C11). -/
def Obligations.PcAdvancesByOne : Prop :=
  ∀ (s t : State) (i : Instr), decode s.cfg.enc (s.slot (s.reg pcReg).toNat) = .ok i → step s = .next t →
    ¬writesPc i → (t.reg pcReg).toNat = ((s.reg pcReg).toNat + 1) % 4294967296

/-- Flags are replaced or kept (10_state.md R29, 40_cycle_alu.md R85, 44_control.md R170): C and V are 0 after every
instruction whose ALU operation is not ADD; the J-type instructions and the terminator leave all four as they were. -/
def Obligations.FlagsAreReplacedOrKept : Prop :=
  ∀ (i : Instr) (s t : State), exec i s = .next t →
    (isJumpOrHalt i → t.psr = s.psr) ∧
    (¬isJumpOrHalt i → ¬usesAdd i → t.psr.c = false ∧ t.psr.v = false)

/-- A store is seen by the very next fetch of its address (20_memory.md R53, 70_reset_and_hazards.md R249). -/
def Obligations.StoreIsSeenByTheNextFetch : Prop :=
  ∀ (s t : State) (rd rm : Reg), exec (.str rd rm) s = .next t → t.inCS (t.reg pcReg) = true →
    (t.reg pcReg).toNat = (effectiveAddress rm s).result.toNat → fetchWord t = .ok (s.reg rd)

/-! ### The ALU -/

/-- ADD (40_cycle_alu.md R88): the sum, the document's carry test and its equality with the carry out of bit 31, the
overflow test and its equality with two's-complement overflow. -/
def Obligations.AluAddFlags : Prop :=
  ∀ (p : ShiftPolicy) (a b : Word),
    let r := (alu p .add a b).result
    let f := (alu p .add a b).flags
    AddOutcome a b r f ∧
      (f.c = true ↔ r.toNat < a.toNat ∧ r.toNat < b.toNat) ∧
      (f.v = true ↔ a.getLsbD 31 = b.getLsbD 31 ∧ r.getLsbD 31 ≠ a.getLsbD 31)

/-- Rotating left and then right by the same amount, of any size, gives the word back (R101). -/
def Obligations.RotateRoundTrip : Prop :=
  ∀ (p : ShiftPolicy) (a k : Word), (alu p .rtr (alu p .rtl a k).result k).result = a

/-! ### Instructions: results, completion and frame -/

/-- ADD and ADDI (41_alu_instructions.md R120, R121). -/
def Obligations.AddInstructions : Prop :=
  ∀ (s : State) (rd rm rn : Reg) (imm : Imm),
    Writes (.add rd rm rn) rd s (AddOutcome (s.reg rm) (s.reg rn)) ∧
      Writes (.addi rd rm imm) rd s (AddOutcome (s.reg rm) (imm.setWidth 32))

/-- UMUL and UMULI (R122, R123). -/
def Obligations.MultiplyInstructions : Prop :=
  ∀ (s : State) (rd rm rn : Reg) (imm : Imm),
    Writes (.umul rd rm rn) rd s (MulOutcome (s.reg rm) (s.reg rn)) ∧
      Writes (.umuli rd rm imm) rd s (MulOutcome (s.reg rm) (imm.setWidth 32))

/-- UDIV, UDIVI, UMOL and UMOLI, with a divisor of 0 too (R124 to R127). -/
def Obligations.DivideInstructions : Prop :=
  ∀ (s : State) (rd rm rn : Reg) (imm : Imm),
    Writes (.udiv rd rm rn) rd s (DivOutcome (s.reg rm) (s.reg rn)) ∧
      Writes (.udivi rd rm imm) rd s (DivOutcome (s.reg rm) (imm.setWidth 32)) ∧
      Writes (.umol rd rm rn) rd s (ModOutcome (s.reg rm) (s.reg rn)) ∧
      Writes (.umoli rd rm imm) rd s (ModOutcome (s.reg rm) (imm.setWidth 32))

/-- AND, ORR, XOR and their I forms (R128 to R133). -/
def Obligations.LogicInstructions : Prop :=
  ∀ (s : State) (rd rm rn : Reg) (imm : Imm),
    Writes (.and rd rm rn) rd s (BitsOutcome (fun x y => x && y) (s.reg rm) (s.reg rn)) ∧
      Writes (.andi rd rm imm) rd s (BitsOutcome (fun x y => x && y) (s.reg rm) (imm.setWidth 32)) ∧
      Writes (.orr rd rm rn) rd s (BitsOutcome (fun x y => x || y) (s.reg rm) (s.reg rn)) ∧
      Writes (.orri rd rm imm) rd s (BitsOutcome (fun x y => x || y) (s.reg rm) (imm.setWidth 32)) ∧
      Writes (.xor rd rm rn) rd s (BitsOutcome (fun x y => x != y) (s.reg rm) (s.reg rn)) ∧
      Writes (.xori rd rm imm) rd s (BitsOutcome (fun x y => x != y) (s.reg rm) (imm.setWidth 32))

/-- SHL, SHR and their I forms, at every amount that has a successor (R134 to R137). -/
def Obligations.ShiftInstructions : Prop :=
  ∀ (s : State) (rd rm rn : Reg) (imm : Imm),
    (MayShift s (s.reg rn) →
      Writes (.shl rd rm rn) rd s (ShlOutcome s.cfg.shiftPolicy (s.reg rm) (s.reg rn)) ∧
        Writes (.shr rd rm rn) rd s (ShrOutcome s.cfg.shiftPolicy (s.reg rm) (s.reg rn))) ∧
    (MayShift s (imm.setWidth 32) →
      Writes (.shli rd rm imm) rd s (ShlOutcome s.cfg.shiftPolicy (s.reg rm) (imm.setWidth 32)) ∧
        Writes (.shri rd rm imm) rd s (ShrOutcome s.cfg.shiftPolicy (s.reg rm) (imm.setWidth 32)))

/-- RTL, RTR and their I forms, at every amount that has a successor (R138 to R141). -/
def Obligations.RotateInstructions : Prop :=
  ∀ (s : State) (rd rm rn : Reg) (imm : Imm),
    (MayShift s (s.reg rn) →
      Writes (.rtl rd rm rn) rd s (RtlOutcome (s.reg rm) (s.reg rn)) ∧
        Writes (.rtr rd rm rn) rd s (RtrOutcome (s.reg rm) (s.reg rn))) ∧
    (MayShift s (imm.setWidth 32) →
      Writes (.rtli rd rm imm) rd s (RtlOutcome (s.reg rm) (imm.setWidth 32)) ∧
        Writes (.rtri rd rm imm) rd s (RtrOutcome (s.reg rm) (imm.setWidth 32)))

/-- Under SHIFT_POLICY = fault a shift or rotate by 32 or more has no successor (92_eei_decisions.md D5). -/
def Obligations.LargeShiftIsStuckUnderFaultPolicy : Prop :=
  ∀ (s : State) (rd rm rn : Reg) (imm : Imm), s.cfg.shiftPolicy = .fault →
    (32 ≤ (s.reg rn).toNat →
      exec (.shl rd rm rn) s = .fault (.shiftAmountOpen (s.reg rn)) ∧
      exec (.shr rd rm rn) s = .fault (.shiftAmountOpen (s.reg rn)) ∧
      exec (.rtl rd rm rn) s = .fault (.shiftAmountOpen (s.reg rn)) ∧
      exec (.rtr rd rm rn) s = .fault (.shiftAmountOpen (s.reg rn))) ∧
    (32 ≤ imm.toNat →
      exec (.shli rd rm imm) s = .fault (.shiftAmountOpen (imm.setWidth 32)) ∧
      exec (.shri rd rm imm) s = .fault (.shiftAmountOpen (imm.setWidth 32)) ∧
      exec (.rtli rd rm imm) s = .fault (.shiftAmountOpen (imm.setWidth 32)) ∧
      exec (.rtri rd rm imm) s = .fault (.shiftAmountOpen (imm.setWidth 32)))

/-- NOT (42_unary_memory.md R150). -/
def Obligations.NotInstruction : Prop :=
  ∀ (s : State) (rd rm : Reg),
    Writes (.not rd rm) rd s (fun r f =>
      (∀ k, k < 32 → r.getLsbD k = !(s.reg rm).getLsbD k) ∧ f.n = !(s.reg rm).getLsbD 31 ∧
        (f.z = true ↔ s.reg rm = 0xFFFFFFFF#32) ∧ f.c = false ∧ f.v = false)

/-- LDR (R151): any slot that exists may be read, whatever its segment; the flags describe the address. -/
def Obligations.LoadInstruction : Prop :=
  ∀ (s : State) (rd rm : Reg), (s.reg rm).toNat < s.cfg.memSize →
    Writes (.ldr rd rm) rd s (fun r f => r = s.slot (s.reg rm).toNat ∧ NzOf (s.reg rm) f)

/-- LDR and STR at a slot that does not exist: fatal, the PSR already replaced, nothing else written (R151, R152). -/
def Obligations.LoadAndStoreOutOfRange : Prop :=
  ∀ (s : State) (rd rm : Reg), s.cfg.memSize ≤ (s.reg rm).toNat →
    StopsWith (.ldr rd rm) (.addressOutOfRange (s.reg rm).toNat) s
        (fun left => NzOf (s.reg rm) left.psr ∧ SameStreams s left) ∧
      StopsWith (.str rd rm) (.addressOutOfRange (s.reg rm).toNat) s
        (fun left => NzOf (s.reg rm) left.psr ∧ SameStreams s left)

/-- STR (R152): the slot at the effective address gets x[Rd]; no register is written. -/
def Obligations.StoreInstruction : Prop :=
  ∀ (s : State) (rd rm : Reg) (a : Nat), (effectiveAddress rm s).result.toNat = a →
    a = (s.reg rm).toNat ∧
    (a < s.cfg.memSize →
      ∃ t, exec (.str rd rm) s = .next t ∧ t.slot a = s.reg rd ∧ SameMemoryBut a s t ∧ SameRegsBut [] s t ∧
        NzOf (s.reg rm) t.psr ∧ SameControl s t ∧ SameStreams s t)

/-- PUSH with the new SP in SS (43_stack.md R160): the slot below the old SP gets the old x[Rd], SP moves to it, and the
flags are those of SP + (2^32 − 1). -/
def Obligations.PushInstruction : Prop :=
  ∀ (s : State) (rd : Reg) (m : SegMap) (a : Nat), (pushPointer s).result.toNat = a →
    a = ((s.reg spReg).toNat + 4294967295) % 4294967296 ∧
    (InStack s m a →
      ∃ t, exec (.push rd) s = .next t ∧ t.slot a = s.reg rd ∧ SameMemoryBut a s t ∧ (t.reg spReg).toNat = a ∧
        SameRegsBut [spReg] s t ∧ AddOutcome (s.reg spReg) 0xFFFFFFFF#32 (t.reg spReg) t.psr ∧
        (t.psr.c = true ↔ (s.reg spReg).toNat ≠ 0) ∧ (t.psr.z = true ↔ (s.reg spReg).toNat = 1) ∧
        (t.psr.v = true ↔ (s.reg spReg).toNat = 2147483648) ∧ SameControl s t ∧ SameStreams s t)

/-- PUSH with the new SP outside SS, on a full stack or with SP = 0 too: StackOverflow, the PSR replaced, memory and SP
unchanged (R160, 60_exceptions.md R204). -/
def Obligations.PushOverflow : Prop :=
  ∀ (s : State) (rd : Reg) (m : SegMap), NotInStack s m (((s.reg spReg).toNat + 4294967295) % 4294967296) →
    StopsWith (.push rd) (.stackOverflow (s.reg spReg - 1)) s
      (fun left => AddOutcome (s.reg spReg) 0xFFFFFFFF#32 (s.reg spReg - 1) left.psr ∧ SameStreams s left)

/-- POP with SP in SS (R161): x[Rd] gets the slot at SP and then SP moves up by one, so a pop into SP loses the word. -/
def Obligations.PopInstruction : Prop :=
  ∀ (s : State) (rd : Reg) (m : SegMap), InStack s m (s.reg spReg).toNat →
    ∃ t, exec (.pop rd) s = .next t ∧ (rd ≠ spReg → t.reg rd = s.slot (s.reg spReg).toNat) ∧
      AddOutcome (s.reg spReg) 1 (t.reg spReg) t.psr ∧ SameRegsBut [rd, spReg] s t ∧ SameMemory s t ∧
      SameControl s t ∧ SameStreams s t

/-- POP with SP outside SS (R161, 60_exceptions.md R209): nothing but the PSR changes, and the instruction completes. -/
def Obligations.PopUnderflowDoesNothing : Prop :=
  ∀ (s : State) (rd : Reg) (m : SegMap), NotInStack s m (s.reg spReg).toNat →
    ∃ t, exec (.pop rd) s = .next t ∧ SameRegsBut [] s t ∧ SameMemory s t ∧
      AddOutcome (s.reg spReg) 1 (s.reg spReg + 1) t.psr ∧ SameControl s t ∧ SameStreams s t

/-- A push and then a pop give back the pushed value and restore SP (R162). -/
def Obligations.PushThenPop : Prop :=
  ∀ (s t : State) (rd rd' : Reg), exec (.push rd) s = .next t → rd' ≠ spReg →
    ∃ u, exec (.pop rd') t = .next u ∧ u.reg rd' = s.reg rd ∧ u.reg spReg = s.reg spReg ∧
      SameRegsBut [rd', spReg] s u

/-- The six jumps (44_control.md R171 to R176): an absolute target, unchecked; nothing but the PC changes. -/
def Obligations.JumpInstructions : Prop :=
  ∀ (s : State) (imm : Imm),
    JumpsTo (.jmp imm) True imm s ∧
      JumpsTo (.jz imm) (s.psr.z = true) imm s ∧
      JumpsTo (.jn imm) (s.psr.n = true) imm s ∧
      JumpsTo (.jc imm) (s.psr.c = true) imm s ∧
      JumpsTo (.jv imm) (s.psr.v = true) imm s ∧
      JumpsTo (.jzn imm) (s.psr.z = true ∨ s.psr.n = true) imm s

/-- The terminator's own effect: the status, and nothing else (40_cycle_alu.md R82, 60_exceptions.md R208). -/
def Obligations.HaltInstruction : Prop :=
  ∀ s : State, ∃ t, exec .halt s = .next t ∧ t.status = .halted ∧ SameRegsBut [] s t ∧ t.psr = s.psr ∧
    SameMemory s t ∧ t.seg = s.seg ∧ t.retired = s.retired ∧ t.cfg = s.cfg ∧ t.tracer = s.tracer ∧ SameStreams s t

/-- Syscall 0 (44_control.md R179): the greeting goes to the console output and nothing else changes. -/
def Obligations.WelcomeSyscall : Prop :=
  ∀ s : State, ∃ t, exec (.syscall 0) s = .next t ∧ t.consoleOut = s.consoleOut ++ s.cfg.greeting ∧
    SameRegsBut [] s t ∧ t.psr = s.psr ∧ SameMemory s t ∧ SameControl s t ∧ t.consoleIn = s.consoleIn ∧
    t.freeLines = s.freeLines

/-- Syscall 1 (R180): x[1] characters from slot x[0] on, the low byte of each word, in order; the addresses do not wrap;
the first address out of range is fatal. -/
def Obligations.ConsoleOutSyscall : Prop :=
  ∀ s : State,
    ((s.reg 1).toNat = 0 ∨ (s.reg 0).toNat + (s.reg 1).toNat ≤ s.cfg.memSize →
      ∃ t, exec (.syscall 1) s = .next t ∧
        t.consoleOut = s.consoleOut ++
          (List.range (s.reg 1).toNat).map (fun k => BitVec.ofNat 8 (s.slot ((s.reg 0).toNat + k)).toNat) ∧
        SameRegsBut [] s t ∧ t.psr = s.psr ∧ SameMemory s t ∧ SameControl s t ∧ t.consoleIn = s.consoleIn ∧
        t.freeLines = s.freeLines) ∧
    ((s.reg 1).toNat ≠ 0 → s.cfg.memSize < (s.reg 0).toNat + (s.reg 1).toNat →
      StopsWith (.syscall 1) (.addressOutOfRange (max (s.reg 0).toNat s.cfg.memSize)) s
        (fun left => left.psr = s.psr ∧ left.consoleIn = s.consoleIn ∧ left.freeLines = s.freeLines))

/-- Syscall 2 on a line that fits (R181): the line is the oldest one supplied, or a free one when none is left (log 5);
each byte is zero-extended into one word from slot x[0] on; no terminator, no length. -/
def Obligations.ConsoleInSyscall : Prop :=
  ∀ (s : State) (chars : List Byte), s.readLine.1 = chars → chars.length ≤ (s.reg 1).toNat →
    chars = [] ∨ (s.reg 0).toNat + chars.length ≤ s.cfg.memSize →
    (∀ l rest, s.consoleIn = l :: rest → chars = l) ∧ (s.consoleIn = [] → chars = Config.freeLine s.freeLines) ∧
    ∃ t, exec (.syscall 2) s = .next t ∧
      (∀ k c, chars[k]? = some c → (t.slot ((s.reg 0).toNat + k)).toNat = c.toNat) ∧
      (∀ b, b < (s.reg 0).toNat ∨ (s.reg 0).toNat + chars.length ≤ b → t.slot b = s.slot b) ∧
      SameRegsBut [] s t ∧ t.psr = s.psr ∧ SameControl s t ∧ t.consoleOut = s.consoleOut ∧
      t.consoleIn = s.consoleIn.tail ∧ (s.consoleIn ≠ [] → t.freeLines = s.freeLines) ∧
      (s.consoleIn = [] → t.freeLines = s.freeLines + 1)

/-- Syscall 2 on a line that does not fit (R181, 60_exceptions.md R212): longer than x[1] is SyscallOverflow before any
write; past the end of memory is AddressOutOfRange, with the words before it written. -/
def Obligations.ConsoleInFailures : Prop :=
  ∀ (s : State) (chars : List Byte), s.readLine.1 = chars →
    ((s.reg 1).toNat < chars.length →
      StopsWith (.syscall 2) (.syscallOverflow chars.length) s
        (fun left => left.psr = s.psr ∧ left.consoleOut = s.consoleOut)) ∧
    (chars.length ≤ (s.reg 1).toNat → chars ≠ [] → s.cfg.memSize < (s.reg 0).toNat + chars.length →
      ∃ left, exec (.syscall 2) s =
          .fault (.fatal (.addressOutOfRange (max (s.reg 0).toNat s.cfg.memSize)) left) ∧
        (∀ k c, chars[k]? = some c → (s.reg 0).toNat + k < s.cfg.memSize →
          (left.slot ((s.reg 0).toNat + k)).toNat = c.toNat) ∧
        (∀ b, b < (s.reg 0).toNat ∨ s.cfg.memSize ≤ b → left.slot b = s.slot b) ∧
        SameRegsBut [] s left ∧ left.psr = s.psr ∧ left.status = .fatal .addressOutOfRange ∧
        left.retired = s.retired ∧ left.seg = s.seg ∧ left.cfg = s.cfg ∧ left.consoleOut = s.consoleOut)

/-- SYSCALL with another number (R177, 60_exceptions.md R206). -/
def Obligations.UnknownSyscallIsFatal : Prop :=
  ∀ (s : State) (n : Imm), 3 ≤ n.toNat →
    StopsWith (.syscall n) (.unknownSyscall n) s (fun left => left.psr = s.psr ∧ SameStreams s left)

/-! ### Memory -/

/-- MemRead and MemWrite (20_memory.md R43, R44): the bounds check, the value read, and that only the slot written
changes. -/
def Obligations.MemoryAccess : Prop :=
  ∀ (s : State) (a : Nat) (v : Word),
    (s.cfg.memSize ≤ a → s.memRead a = none ∧ s.memWrite a v = none) ∧
    (a < s.cfg.memSize → s.memRead a = some (s.slot a) ∧
      ∃ t, s.memWrite a v = some t ∧ t.memRead a = some v ∧ SameMemoryBut a s t ∧ SameRegsBut [] s t ∧
        t.psr = s.psr ∧ SameControl s t ∧ SameStreams s t)

/-- Equal memories are equal data: canonical memories that read alike are the same list (log 7). -/
def Obligations.CanonicalMemoriesAreExtensional : Prop :=
  ∀ m m' : Memory, Memory.wf m = true → Memory.wf m' = true → (∀ a, Memory.read m a = Memory.read m' a) → m = m'

/-- clear() and clear(begin, end) (20_memory.md R45): what they zero, and that nothing else changes. That they are open in
every status, that a failure after the end of a run leaves the whole state unchanged, and which address the failure carries
are the model's choices (logs 26, 27). -/
def Obligations.ClearOperations : Prop :=
  ∀ (s : State) (lo hi : Nat),
    (∃ t, clearAll s = .next t ∧ (∀ a, t.slot a = 0) ∧ SameRegsBut [] s t ∧ t.psr = s.psr ∧ SameControl s t ∧
      SameStreams s t) ∧
    (lo < s.cfg.memSize → hi < s.cfg.memSize →
      ∃ t, clearRange lo hi s = .next t ∧ (∀ a, lo ≤ a → a ≤ hi → t.slot a = 0) ∧
        (∀ a, a < lo ∨ hi < a → t.slot a = s.slot a) ∧ SameRegsBut [] s t ∧ t.psr = s.psr ∧ SameControl s t ∧
        SameStreams s t) ∧
    (s.cfg.memSize ≤ lo ∨ s.cfg.memSize ≤ hi →
      ∃ a left, clearRange lo hi s = .fault (.fatal (.addressOutOfRange a) left) ∧
        (s.cfg.memSize ≤ lo → a = lo) ∧ (lo < s.cfg.memSize → a = hi) ∧ SameMemory s left ∧
        SameRegsBut [] s left ∧ left.psr = s.psr ∧
        (s.status = .unconfigured ∨ s.status = .running → left.status = .fatal .addressOutOfRange) ∧
        (s.status = .halted ∨ (∃ k, s.status = .fatal k) → left = s))

/-! ### Reset, configuration, loading -/

/-- The power-on default (10_state.md R35): registers, flags and memory 0, no map, Unconfigured, nothing retired. The
parameters are the model's choice and not named here (logs 1 to 4). -/
def Obligations.PowerOnDefault : Prop :=
  (∀ r : Reg, State.reset.reg r = 0) ∧ State.reset.psr = ⟨false, false, false, false⟩ ∧
    (∀ a, State.reset.slot a = 0) ∧ State.reset.seg = none ∧ State.reset.status = .unconfigured ∧
    State.reset.retired = 0

/-- init on a valid map (70_reset_and_hazards.md R230, R231): SP is one past SS, PC the start of CS, the map is stored as
given, the run may begin, and nothing else changes. -/
def Obligations.InitOnAValidMap : Prop :=
  ∀ (s : State) (cs ds ss es : SegRange), s.status = .unconfigured → s.cfg.memSize ≤ 4294967296 →
    LegalRanges s.cfg.memSize cs ds ss es →
    ∃ t m, initPort ⟨some cs, some ds, some ss, some es⟩ s = .next t ∧ t.seg = some m ∧
      (m.cs.start.toNat, m.cs.last.toNat) = (cs.start, cs.last) ∧
      (m.ds.start.toNat, m.ds.last.toNat) = (ds.start, ds.last) ∧
      (m.ss.start.toNat, m.ss.last.toNat) = (ss.start, ss.last) ∧
      (m.es.start.toNat, m.es.last.toNat) = (es.start, es.last) ∧
      (t.reg spReg).toNat = (ss.last + 1) % 4294967296 ∧ (t.reg pcReg).toNat = cs.start ∧ t.status = .running ∧
      SameRegsBut [spReg, pcReg] s t ∧ t.psr = s.psr ∧ SameMemory s t ∧ t.retired = s.retired ∧ t.cfg = s.cfg ∧
      t.tracer = s.tracer ∧ SameStreams s t

/-- init on a map that lacks a key or breaks an invariant (R230, R232): SegmentMisconfig, no register, slot or map entry
changed, an ERROR entry to an open tracer, and the run never starts. -/
def Obligations.InitRejectsABadMap : Prop :=
  ∀ (s : State) (q : SegRequest), s.status = .unconfigured →
    (q.cs = none ∨ q.ds = none ∨ q.ss = none ∨ q.es = none ∨
      ∃ cs ds ss es, q = ⟨some cs, some ds, some ss, some es⟩ ∧ (¬LegalRanges s.cfg.memSize cs ds ss es ∨
          s.cfg.memSize < (cs.last - cs.start + 1) + (ds.last - ds.start + 1) + (ss.last - ss.start + 1) +
            (es.last - es.start + 1))) →
    ∃ left, initPort q s = .fault (.fatal .segmentMisconfig left) ∧
      left.status = .fatal .segmentMisconfig ∧ SameRegsBut [] s left ∧ left.psr = s.psr ∧ SameMemory s left ∧
      left.seg = s.seg ∧ left.retired = s.retired ∧ left.cfg = s.cfg ∧
      (∀ x, s.tracer = some x → x.isOpen = true → left.tracer = some ⟨x.log ++ [.error .segmentMisconfig], false⟩) ∧
      step left = .fault (.notRunning (.fatal .segmentMisconfig)) ∧ SameStreams s left

/-- Ranges that fit and are pairwise apart have total size at most MEM_SIZE: invariants 2 and 3 imply 4 (20_memory.md
R48). -/
def Obligations.DisjointRangesFitInMemory : Prop :=
  ∀ (n : Nat) (cs ds ss es : SegRange),
    cs.fits n = true → ds.fits n = true → ss.fits n = true → es.fits n = true →
    cs.apart ds = true → cs.apart ss = true → cs.apart es = true → ds.apart ss = true → ds.apart es = true →
    ss.apart es = true → cs.size + ds.size + ss.size + es.size ≤ n

/-- From a state with the invariant the whole boot ends in a running state with it (R231, R233 to R235): the images stand
at the start of CS and of DS, and every other slot is as it was. -/
def Obligations.BootPlacesTheImages : Prop :=
  ∀ (s : State) (q : SegRequest) (text data : List Word) (t : State), Inv s → bootImages q text data s = .next t →
    Inv t ∧ t.status = .running ∧
    ∃ m, t.seg = some m ∧ t.reg pcReg = m.cs.start ∧ t.reg spReg = m.ss.last + 1 ∧
      (∀ k v, text[k]? = some v → t.slot (m.cs.start.toNat + k) = v) ∧
      (∀ k v, data[k]? = some v → t.slot (m.ds.start.toNat + k) = v) ∧
      (∀ a, (a < m.cs.start.toNat ∨ m.cs.start.toNat + text.length ≤ a) →
        (a < m.ds.start.toNat ∨ m.ds.start.toNat + data.length ≤ a) → t.slot a = s.slot a)

/-- The load port completes (R234, R235): in a running state in which nothing has retired, an image no longer than CS, or
than DS, which ends below MEM_SIZE, is placed at its start and nothing else changes. Placement is the spec's decision D12;
that the port is open while nothing has retired is log 21. -/
def Obligations.LoadPortPlacesAFittingImage : Prop :=
  ∀ (s : State) (m : SegMap) (image : List Word), s.status = .running → s.retired = 0 → s.seg = some m →
    (m.cs.start.toNat + image.length ≤ m.cs.last.toNat + 1 → m.cs.last.toNat < s.cfg.memSize →
      Loads (loadInstructions image s) image m.cs s) ∧
    (m.ds.start.toNat + image.length ≤ m.ds.last.toNat + 1 → m.ds.last.toNat < s.cfg.memSize →
      Loads (loadData image s) image m.ds s)

/-- An image longer than its segment is refused whole (R234, R235). -/
def Obligations.OversizeImageIsRefused : Prop :=
  ∀ (s : State) (m : SegMap) (image : List Word), s.status = .running → s.retired = 0 → s.seg = some m →
    (m.cs.last.toNat - m.cs.start.toNat + 1 < image.length →
      ∃ left, loadInstructions image s = .fault (.fatal .segmentMisconfig left) ∧ SameMemory s left) ∧
    (m.ds.last.toNat - m.ds.start.toNat + 1 < image.length →
      ∃ left, loadData image s = .fault (.fatal .segmentMisconfig left) ∧ SameMemory s left)

/-- A decimal line (R241): digits with a value below 2^32 give that value, leading zeros allowed; anything else is no
number. -/
def Obligations.DecimalLineIsItsValue : Prop :=
  ∀ l : List Byte,
    ((l ≠ [] ∧ (∀ b ∈ l, isDigit b) ∧ decimalValue l < 4294967296) → parseDecimal l = some (decimalValue l)) ∧
    ((l = [] ∨ (∃ b ∈ l, ¬isDigit b) ∨ 4294967296 ≤ decimalValue l) → parseDecimal l = none)

/-- A payload changes only its own section's output (R239), and one before any marker is an error. -/
def Obligations.PayloadKeepsOtherSections : Prop :=
  ∀ (mode : LoaderMode) (l : List Byte) (g h : LoaderImage),
    payload .start l g = none ∧
    (payload mode l g = some h →
      (mode ≠ .ts → h.cs = g.cs) ∧ (mode ≠ .ds → h.ds = g.ds) ∧ (mode ≠ .es → h.es = g.es) ∧
        (mode ≠ .dd → h.data = g.data) ∧ (mode ≠ .td → h.text = g.text) ∧
        (mode = .dd → ∃ n, parseDecimal l = some n ∧ h.data = g.data ++ [BitVec.ofNat 32 n]) ∧
        (mode = .td → ∃ n, parseDecimal l = some n ∧ h.text = g.text ++ [BitVec.ofNat 32 n]))

/-- The synthesised SS (R242): from one past the largest parsed end to the top of memory; none when no range was parsed. -/
def Obligations.LoaderSynthesisesTheStack : Prop :=
  ∀ (g : LoaderImage) (n : Nat),
    (g.request n).cs = g.cs ∧ (g.request n).ds = g.ds ∧ (g.request n).es = g.es ∧
    (g.cs = none → g.ds = none → g.es = none → (g.request n).ss = none) ∧
    (∀ x, (g.cs = some x ∨ g.ds = some x ∨ g.es = some x) →
      ∃ r, (g.request n).ss = some r ∧ x.last < r.start ∧ r.last = n - 1 ∧
        ∃ y, (g.cs = some y ∨ g.ds = some y ∨ g.es = some y) ∧ r.start = y.last + 1)
end

