-- ==== Sys2Proof/Laws/Decode.lean ====
section
/-! SUPPORT. The fields of a word as numbers, and the tables' lookups. -/
namespace Sys2Proof

/-- Concatenation as arithmetic. -/
theorem toNat_append_eq {m n : Nat} (x : BitVec m) (y : BitVec n) :
    (x ++ y).toNat = x.toNat * 2 ^ n + y.toNat := by
  rw [BitVec.toNat_append, ← Nat.shiftLeft_add_eq_or_of_lt y.isLt, Nat.shiftLeft_eq]

theorem Fields.toWord_toNat (d : Fields) :
    d.toWord.toNat =
      d.imm.toNat * 1048576 + d.rm.val * 65536 + d.rd.val * 4096 + d.code.toNat * 16 + d.type.toNat := by
  simp only [Fields.toWord, toNat_append_eq, BitVec.toNat_ofFin]
  ring

theorem Fields.type_toNat (w : Word) : (Fields.ofWord w).type.toNat = w.toNat % 16 := by
  simp [Fields.ofWord, BitVec.extractLsb'_toNat]

theorem Fields.code_toNat (w : Word) : (Fields.ofWord w).code.toNat = w.toNat / 16 % 256 := by
  simp [Fields.ofWord, BitVec.extractLsb'_toNat, Nat.shiftRight_eq_div_pow]

theorem Fields.rd_val (w : Word) : (Fields.ofWord w).rd.val = w.toNat / 4096 % 16 := by
  show (w.extractLsb' 12 4).toNat = _
  simp [BitVec.extractLsb'_toNat, Nat.shiftRight_eq_div_pow]

theorem Fields.rm_val (w : Word) : (Fields.ofWord w).rm.val = w.toNat / 65536 % 16 := by
  show (w.extractLsb' 16 4).toNat = _
  simp [BitVec.extractLsb'_toNat, Nat.shiftRight_eq_div_pow]

theorem Fields.imm_toNat (w : Word) : (Fields.ofWord w).imm.toNat = w.toNat / 1048576 % 4096 := by
  simp [Fields.ofWord, BitVec.extractLsb'_toNat, Nat.shiftRight_eq_div_pow]

theorem Fields.rn_val (d : Fields) : d.rn.val = d.imm.toNat % 16 := by
  show (d.imm.extractLsb' 0 4).toNat = _
  simp [BitVec.extractLsb'_toNat]

theorem Fields.ext_val {d d' : Fields} (h1 : d.type.toNat = d'.type.toNat) (h2 : d.code.toNat = d'.code.toNat)
    (h3 : d.rd.val = d'.rd.val) (h4 : d.rm.val = d'.rm.val) (h5 : d.imm.toNat = d'.imm.toNat) : d = d' := by
  cases d; cases d'
  simp only [Fields.mk.injEq]
  exact ⟨BitVec.eq_of_toNat_eq h1, BitVec.eq_of_toNat_eq h2, Fin.ext h3, Fin.ext h4, BitVec.eq_of_toNat_eq h5⟩

/-- The fields of a word built from fields are those fields. -/
theorem Fields.ofWord_toWord (d : Fields) : Fields.ofWord d.toWord = d := by
  have h1 := d.type.isLt
  have h2 := d.code.isLt
  have h3 := d.rd.isLt
  have h4 := d.rm.isLt
  have h5 := d.imm.isLt
  apply Fields.ext_val
  · rw [Fields.type_toNat, Fields.toWord_toNat]; omega
  · rw [Fields.code_toNat, Fields.toWord_toNat]; omega
  · rw [Fields.rd_val, Fields.toWord_toNat]; omega
  · rw [Fields.rm_val, Fields.toWord_toNat]; omega
  · rw [Fields.imm_toNat, Fields.toWord_toNat]; omega

/-! ### Looking a value up in an injective table -/

theorem find_of_nodup {α β : Type} [DecidableEq β] (f : α → β) :
    ∀ (l : List α), (l.map f).Nodup → ∀ a ∈ l, l.find? (fun x => f x == f a) = some a
  | [], _, _, h => by cases h
  | x :: rest, hnd, a, h => by
    rw [List.map_cons, List.nodup_cons] at hnd
    rcases List.mem_cons.1 h with rfl | h
    · simp
    · have hne : f x ≠ f a := fun he => hnd.1 (he ▸ List.mem_map_of_mem h)
      simpa [hne] using find_of_nodup f rest hnd.2 a h

theorem OpType.mem_all (t : OpType) : t ∈ OpType.all := by cases t <;> decide

theorem OpCode.mem_all (c : OpCode) : c ∈ OpCode.all := by cases c <;> decide

theorem Encoding.wf_iff (e : Encoding) :
    e.wf = true ↔ (OpType.all.map e.typeOf).Nodup ∧ (OpCode.all.map e.codeOf).Nodup ∧
      e.types.it = 0 ∧ e.codes.add = 6 := by
  simp only [Encoding.wf, Bool.and_eq_true, decide_eq_true_eq, beq_iff_eq, and_assoc]

theorem Encoding.typeFor_typeOf {e : Encoding} (h : e.wf = true) (t : OpType) : e.typeFor (e.typeOf t) = some t :=
  find_of_nodup e.typeOf OpType.all ((Encoding.wf_iff e).1 h).1 t (OpType.mem_all t)

theorem Encoding.codeFor_codeOf {e : Encoding} (h : e.wf = true) (c : OpCode) : e.codeFor (e.codeOf c) = some c :=
  find_of_nodup e.codeOf OpCode.all ((Encoding.wf_iff e).1 h).2.1 c (OpCode.mem_all c)

theorem Encoding.standard_wf : Encoding.standard.wf = true := by decide

/-- What the decoder does with a word that is not the terminator, its type and code being known. -/
theorem decode_of_fields {e : Encoding} {w : Word} {t : OpType} {c : OpCode} {i : Instr} (hw : w ≠ terminator)
    (ht : e.typeFor (Fields.ofWord w).type = some t) (hc : e.codeFor (Fields.ofWord w).code = some c)
    (hi : instrOf t c (Fields.ofWord w) = some i) : decode e w = .ok i := by
  simp [decode, hw, ht, hc, hi]

theorem decode_terminator (e : Encoding) : decode e terminator = .ok .halt := by simp [decode]

end Sys2Proof
end

