-- ==== Sys2Proof/Laws/State.lean ====
section
/-! SUPPORT. One lemma per field per update of State, so that no proof unfolds a record update. -/
namespace Sys2Proof.Machine

/-! #### State.setReg -/

@[simp] theorem setReg_regs (s : State) (r : Reg) (v : Word) : (s.setReg r v).regs = s.regs.set r v := rfl
@[simp] theorem setReg_psr (s : State) (r : Reg) (v : Word) : (s.setReg r v).psr = s.psr := rfl
@[simp] theorem setReg_seg (s : State) (r : Reg) (v : Word) : (s.setReg r v).seg = s.seg := rfl
@[simp] theorem setReg_mem (s : State) (r : Reg) (v : Word) : (s.setReg r v).mem = s.mem := rfl
@[simp] theorem setReg_status (s : State) (r : Reg) (v : Word) : (s.setReg r v).status = s.status := rfl
@[simp] theorem setReg_retired (s : State) (r : Reg) (v : Word) : (s.setReg r v).retired = s.retired := rfl
@[simp] theorem setReg_cfg (s : State) (r : Reg) (v : Word) : (s.setReg r v).cfg = s.cfg := rfl
@[simp] theorem setReg_consoleIn (s : State) (r : Reg) (v : Word) : (s.setReg r v).consoleIn = s.consoleIn := rfl
@[simp] theorem setReg_consoleOut (s : State) (r : Reg) (v : Word) : (s.setReg r v).consoleOut = s.consoleOut := rfl
@[simp] theorem setReg_freeLines (s : State) (r : Reg) (v : Word) : (s.setReg r v).freeLines = s.freeLines := rfl
@[simp] theorem setReg_tracer (s : State) (r : Reg) (v : Word) : (s.setReg r v).tracer = s.tracer := rfl
@[simp] theorem setReg_slot (s : State) (r : Reg) (v : Word) (q : Nat) : (s.setReg r v).slot q = s.slot q := rfl
@[simp] theorem setReg_inCS (s : State) (r : Reg) (v : Word) (q : Word) : (s.setReg r v).inCS q = s.inCS q := rfl
@[simp] theorem setReg_inSS (s : State) (r : Reg) (v : Word) (q : Word) : (s.setReg r v).inSS q = s.inSS q := rfl
@[simp] theorem setReg_memRead (s : State) (r : Reg) (v : Word) (q : Nat) : (s.setReg r v).memRead q = s.memRead q := rfl

/-! #### State.setPsr -/

@[simp] theorem setPsr_regs (s : State) (f : Psr) : (s.setPsr f).regs = s.regs := rfl
@[simp] theorem setPsr_psr (s : State) (f : Psr) : (s.setPsr f).psr = f := rfl
@[simp] theorem setPsr_seg (s : State) (f : Psr) : (s.setPsr f).seg = s.seg := rfl
@[simp] theorem setPsr_mem (s : State) (f : Psr) : (s.setPsr f).mem = s.mem := rfl
@[simp] theorem setPsr_status (s : State) (f : Psr) : (s.setPsr f).status = s.status := rfl
@[simp] theorem setPsr_retired (s : State) (f : Psr) : (s.setPsr f).retired = s.retired := rfl
@[simp] theorem setPsr_cfg (s : State) (f : Psr) : (s.setPsr f).cfg = s.cfg := rfl
@[simp] theorem setPsr_consoleIn (s : State) (f : Psr) : (s.setPsr f).consoleIn = s.consoleIn := rfl
@[simp] theorem setPsr_consoleOut (s : State) (f : Psr) : (s.setPsr f).consoleOut = s.consoleOut := rfl
@[simp] theorem setPsr_freeLines (s : State) (f : Psr) : (s.setPsr f).freeLines = s.freeLines := rfl
@[simp] theorem setPsr_tracer (s : State) (f : Psr) : (s.setPsr f).tracer = s.tracer := rfl
@[simp] theorem setPsr_reg (s : State) (f : Psr) (q : Reg) : (s.setPsr f).reg q = s.reg q := rfl
@[simp] theorem setPsr_slot (s : State) (f : Psr) (q : Nat) : (s.setPsr f).slot q = s.slot q := rfl
@[simp] theorem setPsr_inCS (s : State) (f : Psr) (q : Word) : (s.setPsr f).inCS q = s.inCS q := rfl
@[simp] theorem setPsr_inSS (s : State) (f : Psr) (q : Word) : (s.setPsr f).inSS q = s.inSS q := rfl
@[simp] theorem setPsr_memRead (s : State) (f : Psr) (q : Nat) : (s.setPsr f).memRead q = s.memRead q := rfl

/-! #### State.setSlot -/

@[simp] theorem setSlot_regs (s : State) (a : Nat) (v : Word) : (s.setSlot a v).regs = s.regs := rfl
@[simp] theorem setSlot_psr (s : State) (a : Nat) (v : Word) : (s.setSlot a v).psr = s.psr := rfl
@[simp] theorem setSlot_seg (s : State) (a : Nat) (v : Word) : (s.setSlot a v).seg = s.seg := rfl
@[simp] theorem setSlot_mem (s : State) (a : Nat) (v : Word) : (s.setSlot a v).mem = Memory.write s.mem a v := rfl
@[simp] theorem setSlot_status (s : State) (a : Nat) (v : Word) : (s.setSlot a v).status = s.status := rfl
@[simp] theorem setSlot_retired (s : State) (a : Nat) (v : Word) : (s.setSlot a v).retired = s.retired := rfl
@[simp] theorem setSlot_cfg (s : State) (a : Nat) (v : Word) : (s.setSlot a v).cfg = s.cfg := rfl
@[simp] theorem setSlot_consoleIn (s : State) (a : Nat) (v : Word) : (s.setSlot a v).consoleIn = s.consoleIn := rfl
@[simp] theorem setSlot_consoleOut (s : State) (a : Nat) (v : Word) : (s.setSlot a v).consoleOut = s.consoleOut := rfl
@[simp] theorem setSlot_freeLines (s : State) (a : Nat) (v : Word) : (s.setSlot a v).freeLines = s.freeLines := rfl
@[simp] theorem setSlot_tracer (s : State) (a : Nat) (v : Word) : (s.setSlot a v).tracer = s.tracer := rfl
@[simp] theorem setSlot_reg (s : State) (a : Nat) (v : Word) (q : Reg) : (s.setSlot a v).reg q = s.reg q := rfl
@[simp] theorem setSlot_inCS (s : State) (a : Nat) (v : Word) (q : Word) : (s.setSlot a v).inCS q = s.inCS q := rfl
@[simp] theorem setSlot_inSS (s : State) (a : Nat) (v : Word) (q : Word) : (s.setSlot a v).inSS q = s.inSS q := rfl

/-! #### State.emit -/

@[simp] theorem emit_regs (s : State) (bs : List Byte) : (s.emit bs).regs = s.regs := rfl
@[simp] theorem emit_psr (s : State) (bs : List Byte) : (s.emit bs).psr = s.psr := rfl
@[simp] theorem emit_seg (s : State) (bs : List Byte) : (s.emit bs).seg = s.seg := rfl
@[simp] theorem emit_mem (s : State) (bs : List Byte) : (s.emit bs).mem = s.mem := rfl
@[simp] theorem emit_status (s : State) (bs : List Byte) : (s.emit bs).status = s.status := rfl
@[simp] theorem emit_retired (s : State) (bs : List Byte) : (s.emit bs).retired = s.retired := rfl
@[simp] theorem emit_cfg (s : State) (bs : List Byte) : (s.emit bs).cfg = s.cfg := rfl
@[simp] theorem emit_consoleIn (s : State) (bs : List Byte) : (s.emit bs).consoleIn = s.consoleIn := rfl
@[simp] theorem emit_consoleOut (s : State) (bs : List Byte) : (s.emit bs).consoleOut = s.consoleOut ++ bs := rfl
@[simp] theorem emit_freeLines (s : State) (bs : List Byte) : (s.emit bs).freeLines = s.freeLines := rfl
@[simp] theorem emit_tracer (s : State) (bs : List Byte) : (s.emit bs).tracer = s.tracer := rfl
@[simp] theorem emit_reg (s : State) (bs : List Byte) (q : Reg) : (s.emit bs).reg q = s.reg q := rfl
@[simp] theorem emit_slot (s : State) (bs : List Byte) (q : Nat) : (s.emit bs).slot q = s.slot q := rfl
@[simp] theorem emit_inCS (s : State) (bs : List Byte) (q : Word) : (s.emit bs).inCS q = s.inCS q := rfl
@[simp] theorem emit_inSS (s : State) (bs : List Byte) (q : Word) : (s.emit bs).inSS q = s.inSS q := rfl
@[simp] theorem emit_memRead (s : State) (bs : List Byte) (q : Nat) : (s.emit bs).memRead q = s.memRead q := rfl

/-! #### State.advancePc -/

@[simp] theorem advancePc_psr (s : State) : (s.advancePc).psr = s.psr := rfl
@[simp] theorem advancePc_seg (s : State) : (s.advancePc).seg = s.seg := rfl
@[simp] theorem advancePc_mem (s : State) : (s.advancePc).mem = s.mem := rfl
@[simp] theorem advancePc_status (s : State) : (s.advancePc).status = s.status := rfl
@[simp] theorem advancePc_retired (s : State) : (s.advancePc).retired = s.retired := rfl
@[simp] theorem advancePc_cfg (s : State) : (s.advancePc).cfg = s.cfg := rfl
@[simp] theorem advancePc_consoleIn (s : State) : (s.advancePc).consoleIn = s.consoleIn := rfl
@[simp] theorem advancePc_consoleOut (s : State) : (s.advancePc).consoleOut = s.consoleOut := rfl
@[simp] theorem advancePc_freeLines (s : State) : (s.advancePc).freeLines = s.freeLines := rfl
@[simp] theorem advancePc_tracer (s : State) : (s.advancePc).tracer = s.tracer := rfl
@[simp] theorem advancePc_slot (s : State) (q : Nat) : (s.advancePc).slot q = s.slot q := rfl
@[simp] theorem advancePc_inCS (s : State) (q : Word) : (s.advancePc).inCS q = s.inCS q := rfl
@[simp] theorem advancePc_inSS (s : State) (q : Word) : (s.advancePc).inSS q = s.inSS q := rfl
@[simp] theorem advancePc_memRead (s : State) (q : Nat) : (s.advancePc).memRead q = s.memRead q := rfl

/-! #### State.stopped -/

@[simp] theorem stopped_regs (s : State) (k : FatalKind) : (s.stopped k).regs = s.regs := rfl
@[simp] theorem stopped_psr (s : State) (k : FatalKind) : (s.stopped k).psr = s.psr := rfl
@[simp] theorem stopped_seg (s : State) (k : FatalKind) : (s.stopped k).seg = s.seg := rfl
@[simp] theorem stopped_mem (s : State) (k : FatalKind) : (s.stopped k).mem = s.mem := rfl
@[simp] theorem stopped_status (s : State) (k : FatalKind) : (s.stopped k).status = .fatal k := rfl
@[simp] theorem stopped_retired (s : State) (k : FatalKind) : (s.stopped k).retired = s.retired := rfl
@[simp] theorem stopped_cfg (s : State) (k : FatalKind) : (s.stopped k).cfg = s.cfg := rfl
@[simp] theorem stopped_consoleIn (s : State) (k : FatalKind) : (s.stopped k).consoleIn = s.consoleIn := rfl
@[simp] theorem stopped_consoleOut (s : State) (k : FatalKind) : (s.stopped k).consoleOut = s.consoleOut := rfl
@[simp] theorem stopped_freeLines (s : State) (k : FatalKind) : (s.stopped k).freeLines = s.freeLines := rfl
@[simp] theorem stopped_tracer (s : State) (k : FatalKind) : (s.stopped k).tracer = s.tracer.map (fun t => t.fail k) := rfl
@[simp] theorem stopped_reg (s : State) (k : FatalKind) (q : Reg) : (s.stopped k).reg q = s.reg q := rfl
@[simp] theorem stopped_slot (s : State) (k : FatalKind) (q : Nat) : (s.stopped k).slot q = s.slot q := rfl
@[simp] theorem stopped_inCS (s : State) (k : FatalKind) (q : Word) : (s.stopped k).inCS q = s.inCS q := rfl
@[simp] theorem stopped_inSS (s : State) (k : FatalKind) (q : Word) : (s.stopped k).inSS q = s.inSS q := rfl
@[simp] theorem stopped_memRead (s : State) (k : FatalKind) (q : Nat) : (s.stopped k).memRead q = s.memRead q := rfl

/-! #### State.retire -/

@[simp] theorem retire_regs (s : State) (w : Word) : (s.retire w).regs = s.regs := rfl
@[simp] theorem retire_psr (s : State) (w : Word) : (s.retire w).psr = s.psr := rfl
@[simp] theorem retire_seg (s : State) (w : Word) : (s.retire w).seg = s.seg := rfl
@[simp] theorem retire_mem (s : State) (w : Word) : (s.retire w).mem = s.mem := rfl
@[simp] theorem retire_status (s : State) (w : Word) : (s.retire w).status = s.status := rfl
@[simp] theorem retire_retired (s : State) (w : Word) : (s.retire w).retired = s.retired + 1 := rfl
@[simp] theorem retire_cfg (s : State) (w : Word) : (s.retire w).cfg = s.cfg := rfl
@[simp] theorem retire_consoleIn (s : State) (w : Word) : (s.retire w).consoleIn = s.consoleIn := rfl
@[simp] theorem retire_consoleOut (s : State) (w : Word) : (s.retire w).consoleOut = s.consoleOut := rfl
@[simp] theorem retire_freeLines (s : State) (w : Word) : (s.retire w).freeLines = s.freeLines := rfl
@[simp] theorem retire_reg (s : State) (w : Word) (q : Reg) : (s.retire w).reg q = s.reg q := rfl
@[simp] theorem retire_slot (s : State) (w : Word) (q : Nat) : (s.retire w).slot q = s.slot q := rfl
@[simp] theorem retire_inCS (s : State) (w : Word) (q : Word) : (s.retire w).inCS q = s.inCS q := rfl
@[simp] theorem retire_inSS (s : State) (w : Word) (q : Word) : (s.retire w).inSS q = s.inSS q := rfl
@[simp] theorem retire_memRead (s : State) (w : Word) (q : Nat) : (s.retire w).memRead q = s.memRead q := rfl

/-! #### State.untraced -/

@[simp] theorem untraced_regs (s : State) : (s.untraced).regs = s.regs := rfl
@[simp] theorem untraced_psr (s : State) : (s.untraced).psr = s.psr := rfl
@[simp] theorem untraced_seg (s : State) : (s.untraced).seg = s.seg := rfl
@[simp] theorem untraced_mem (s : State) : (s.untraced).mem = s.mem := rfl
@[simp] theorem untraced_status (s : State) : (s.untraced).status = s.status := rfl
@[simp] theorem untraced_retired (s : State) : (s.untraced).retired = s.retired := rfl
@[simp] theorem untraced_cfg (s : State) : (s.untraced).cfg = s.cfg := rfl
@[simp] theorem untraced_consoleIn (s : State) : (s.untraced).consoleIn = s.consoleIn := rfl
@[simp] theorem untraced_consoleOut (s : State) : (s.untraced).consoleOut = s.consoleOut := rfl
@[simp] theorem untraced_freeLines (s : State) : (s.untraced).freeLines = s.freeLines := rfl
@[simp] theorem untraced_tracer (s : State) : (s.untraced).tracer = none := rfl
@[simp] theorem untraced_reg (s : State) (q : Reg) : (s.untraced).reg q = s.reg q := rfl
@[simp] theorem untraced_slot (s : State) (q : Nat) : (s.untraced).slot q = s.slot q := rfl
@[simp] theorem untraced_inCS (s : State) (q : Word) : (s.untraced).inCS q = s.inCS q := rfl
@[simp] theorem untraced_inSS (s : State) (q : Word) : (s.untraced).inSS q = s.inSS q := rfl
@[simp] theorem untraced_memRead (s : State) (q : Nat) : (s.untraced).memRead q = s.memRead q := rfl

/-! #### State.configured -/

@[simp] theorem configured_psr (s : State) (m : SegMap) : (s.configured m).psr = s.psr := rfl
@[simp] theorem configured_seg (s : State) (m : SegMap) : (s.configured m).seg = some m := rfl
@[simp] theorem configured_mem (s : State) (m : SegMap) : (s.configured m).mem = s.mem := rfl
@[simp] theorem configured_status (s : State) (m : SegMap) : (s.configured m).status = .running := rfl
@[simp] theorem configured_retired (s : State) (m : SegMap) : (s.configured m).retired = s.retired := rfl
@[simp] theorem configured_cfg (s : State) (m : SegMap) : (s.configured m).cfg = s.cfg := rfl
@[simp] theorem configured_consoleIn (s : State) (m : SegMap) : (s.configured m).consoleIn = s.consoleIn := rfl
@[simp] theorem configured_consoleOut (s : State) (m : SegMap) : (s.configured m).consoleOut = s.consoleOut := rfl
@[simp] theorem configured_freeLines (s : State) (m : SegMap) : (s.configured m).freeLines = s.freeLines := rfl
@[simp] theorem configured_tracer (s : State) (m : SegMap) : (s.configured m).tracer = s.tracer := rfl
@[simp] theorem configured_slot (s : State) (m : SegMap) (q : Nat) : (s.configured m).slot q = s.slot q := rfl
@[simp] theorem configured_memRead (s : State) (m : SegMap) (q : Nat) : (s.configured m).memRead q = s.memRead q := rfl

/-! #### State.attachTracer -/

@[simp] theorem attachTracer_regs (s : State) : (s.attachTracer).regs = s.regs := rfl
@[simp] theorem attachTracer_psr (s : State) : (s.attachTracer).psr = s.psr := rfl
@[simp] theorem attachTracer_seg (s : State) : (s.attachTracer).seg = s.seg := rfl
@[simp] theorem attachTracer_mem (s : State) : (s.attachTracer).mem = s.mem := rfl
@[simp] theorem attachTracer_status (s : State) : (s.attachTracer).status = s.status := rfl
@[simp] theorem attachTracer_retired (s : State) : (s.attachTracer).retired = s.retired := rfl
@[simp] theorem attachTracer_cfg (s : State) : (s.attachTracer).cfg = s.cfg := rfl
@[simp] theorem attachTracer_consoleIn (s : State) : (s.attachTracer).consoleIn = s.consoleIn := rfl
@[simp] theorem attachTracer_consoleOut (s : State) : (s.attachTracer).consoleOut = s.consoleOut := rfl
@[simp] theorem attachTracer_freeLines (s : State) : (s.attachTracer).freeLines = s.freeLines := rfl
@[simp] theorem attachTracer_tracer (s : State) : (s.attachTracer).tracer = some ⟨[], true⟩ := rfl
@[simp] theorem attachTracer_reg (s : State) (q : Reg) : (s.attachTracer).reg q = s.reg q := rfl
@[simp] theorem attachTracer_slot (s : State) (q : Nat) : (s.attachTracer).slot q = s.slot q := rfl
@[simp] theorem attachTracer_inCS (s : State) (q : Word) : (s.attachTracer).inCS q = s.inCS q := rfl
@[simp] theorem attachTracer_inSS (s : State) (q : Word) : (s.attachTracer).inSS q = s.inSS q := rfl
@[simp] theorem attachTracer_memRead (s : State) (q : Nat) : (s.attachTracer).memRead q = s.memRead q := rfl

/-! #### Reading a register after a write -/

theorem setReg_reg (s : State) (r : Reg) (v : Word) (q : Reg) :
    (s.setReg r v).reg q = if q = r then v else s.reg q := by
  simp only [State.reg, State.setReg, Fin.getElem_fin, Vector.getElem_set]
  by_cases h : q = r
  · simp [h]
  · rw [if_neg (fun hv : r.val = q.val => h (Fin.ext hv.symm)), if_neg h]

@[simp] theorem setReg_reg_same (s : State) (r : Reg) (v : Word) : (s.setReg r v).reg r = v := by
  simp [setReg_reg]

theorem setReg_reg_ne (s : State) {r q : Reg} (v : Word) (h : q ≠ r) : (s.setReg r v).reg q = s.reg q := by
  simp [setReg_reg, h]

theorem advancePc_reg (s : State) (q : Reg) :
    s.advancePc.reg q = if q = pcReg then s.reg pcReg + 1 else s.reg q := setReg_reg s pcReg _ q

theorem configured_reg (s : State) (m : SegMap) (q : Reg) :
    (s.configured m).reg q = if q = pcReg then m.cs.start else if q = spReg then m.ss.last + 1 else s.reg q := by
  show ((s.setReg spReg (m.ss.last + 1)).setReg pcReg m.cs.start).reg q = _
  simp only [setReg_reg]

end Sys2Proof.Machine
end

