-- ==== Sys2Proof/Laws/Memory.lean ====
section
/-! SUPPORT. The laws of memory: reading after writing, and that every operation keeps the canonical form. -/
namespace Sys2Proof.Machine

/-! ### Reading -/

theorem read_erase (m : Memory) (a b : Nat) :
    Memory.read (Memory.erase m a) b = if b = a then 0 else Memory.read m b := by
  induction m with
  | nil => simp [Memory.erase, Memory.read]
  | cons e rest ih =>
    obtain ⟨k, u⟩ := e
    simp only [Memory.erase] at ih
    by_cases hk : k = a
    · subst hk
      by_cases hb : b = k
      · simp_all [Memory.erase]
      · simp [Memory.erase, Memory.read, ih, hb, Ne.symm hb]
    · by_cases hb : b = a
      · subst hb
        simp [Memory.erase, Memory.read, ih, hk]
      · simp [Memory.erase, Memory.read, ih, hk, hb]

theorem read_insert {m : Memory} {a : Nat} (v : Word) (hm : ∀ e ∈ m, e.1 ≠ a) (b : Nat) :
    Memory.read (Memory.insert m a v) b = if b = a then v else Memory.read m b := by
  induction m with
  | nil =>
    by_cases hb : b = a
    · simp [Memory.insert, Memory.read, hb]
    · simp [Memory.insert, Memory.read, hb, Ne.symm hb]
  | cons e rest ih =>
    obtain ⟨k, u⟩ := e
    have hk : k ≠ a := hm (k, u) (by simp)
    have ih' := ih (fun e he => hm e (by simp [he]))
    by_cases hlt : a < k
    · by_cases hb : b = a
      · simp [Memory.insert, hlt, Memory.read, hb]
      · simp [Memory.insert, hlt, Memory.read, hb, Ne.symm hb]
    · by_cases hb : b = a
      · subst hb
        simp [Memory.insert, hlt, Memory.read, ih', hk]
      · simp [Memory.insert, hlt, Memory.read, ih', hb]

theorem erase_ne (m : Memory) (a : Nat) : ∀ e ∈ Memory.erase m a, e.1 ≠ a := by
  intro e he
  simpa using (List.mem_filter.1 he).2

/-- A slot written reads as written, every other slot as before; of any list. -/
theorem read_write (m : Memory) (a : Nat) (v : Word) (b : Nat) :
    Memory.read (Memory.write m a v) b = if b = a then v else Memory.read m b := by
  by_cases hv : v = 0
  · simp [Memory.write, hv, read_erase]
  · simp only [Memory.write, hv, if_false, read_insert v (erase_ne m a), read_erase]
    by_cases hb : b = a <;> simp [hb]

theorem read_clearRange (m : Memory) (lo hi b : Nat) :
    Memory.read (Memory.clearRange m lo hi) b = if lo ≤ b ∧ b ≤ hi then 0 else Memory.read m b := by
  induction m with
  | nil => simp [Memory.clearRange, Memory.read]
  | cons e rest ih =>
    obtain ⟨k, u⟩ := e
    simp only [Memory.clearRange] at ih
    by_cases hk : k < lo ∨ hi < k
    · by_cases hb : k = b
      · subst hb
        have : ¬(lo ≤ k ∧ k ≤ hi) := by omega
        simp [Memory.clearRange, Memory.read, hk, this]
      · simp [Memory.clearRange, Memory.read, hk, hb, ih]
    · by_cases hb : k = b
      · subst hb
        have : lo ≤ k ∧ k ≤ hi := by omega
        simp [Memory.clearRange, hk, ih, this]
      · simp [Memory.clearRange, Memory.read, hk, hb, ih]

@[simp] theorem setSlot_slot (s : State) (a : Nat) (v : Word) (b : Nat) :
    (s.setSlot a v).slot b = if b = a then v else s.slot b := read_write s.mem a v b

/-! ### What MemRead and MemWrite answer -/

theorem memRead_some {s : State} {a : Nat} {w : Word} (h : s.memRead a = some w) :
    a < s.cfg.memSize ∧ w = s.slot a := by
  unfold State.memRead at h
  split at h
  · exact ⟨‹_›, by simpa using h.symm⟩
  · cases h

theorem memRead_none {s : State} {a : Nat} (h : s.memRead a = none) : s.cfg.memSize ≤ a := by
  unfold State.memRead at h
  split at h
  · cases h
  · omega

theorem memWrite_some {s t : State} {a : Nat} {v : Word} (h : s.memWrite a v = some t) :
    a < s.cfg.memSize ∧ t = s.setSlot a v := by
  unfold State.memWrite at h
  split at h
  · exact ⟨‹_›, by simpa using h.symm⟩
  · cases h

theorem memWrite_none {s : State} {a : Nat} {v : Word} (h : s.memWrite a v = none) : s.cfg.memSize ≤ a := by
  unfold State.memWrite at h
  split at h
  · cases h
  · omega

theorem memRead_of_lt {s : State} {a : Nat} (h : a < s.cfg.memSize) : s.memRead a = some (s.slot a) := by
  simp [State.memRead, h]

theorem memWrite_of_lt {s : State} {a : Nat} (v : Word) (h : a < s.cfg.memSize) :
    s.memWrite a v = some (s.setSlot a v) := by
  simp [State.memWrite, h]

/-! ### The canonical form -/

theorem wf_iff (m : Memory) :
    Memory.wf m = true ↔ m.Pairwise (fun p q => p.1 < q.1) ∧ ∀ e ∈ m, e.2 ≠ 0 := by
  simp [Memory.wf]

@[simp] theorem wf_nil : Memory.wf [] = true := by decide

theorem wf_filter {m : Memory} (p : Nat × Word → Bool) (h : Memory.wf m = true) :
    Memory.wf (m.filter p) = true := by
  rw [wf_iff] at *
  exact ⟨h.1.filter p, fun e he => h.2 e (List.mem_filter.1 he).1⟩

theorem mem_insert {m : Memory} {a : Nat} {v : Word} {e : Nat × Word} :
    e ∈ Memory.insert m a v ↔ e = (a, v) ∨ e ∈ m := by
  induction m with
  | nil => simp [Memory.insert]
  | cons x rest ih =>
    obtain ⟨k, u⟩ := x
    by_cases hlt : a < k
    · simp [Memory.insert, hlt]
    · simp only [Memory.insert, hlt, if_false, List.mem_cons, ih]
      tauto

theorem wf_insert {m : Memory} {a : Nat} {v : Word} (h : Memory.wf m = true) (hv : v ≠ 0)
    (hm : ∀ e ∈ m, e.1 ≠ a) : Memory.wf (Memory.insert m a v) = true := by
  rw [wf_iff] at *
  refine ⟨?_, ?_⟩
  · obtain ⟨hs, -⟩ := h
    induction m with
    | nil => simp [Memory.insert]
    | cons x rest ih =>
      obtain ⟨k, u⟩ := x
      rw [List.pairwise_cons] at hs
      have hk : k ≠ a := hm (k, u) (by simp)
      by_cases hlt : a < k
      · simp only [Memory.insert, hlt, if_true, List.pairwise_cons, List.mem_cons]
        refine ⟨?_, hs.1, hs.2⟩
        rintro e (rfl | he)
        · exact hlt
        · exact lt_trans hlt (hs.1 e he)
      · simp only [Memory.insert, hlt, if_false, List.pairwise_cons]
        refine ⟨?_, ih (fun e he => hm e (by simp [he])) hs.2⟩
        intro e he
        rcases mem_insert.1 he with rfl | he
        · show k < a; omega
        · exact hs.1 e he
  · intro e he
    rcases mem_insert.1 he with rfl | he
    · exact hv
    · exact h.2 e he

theorem wf_write {m : Memory} (a : Nat) (v : Word) (h : Memory.wf m = true) :
    Memory.wf (Memory.write m a v) = true := by
  unfold Memory.write
  split
  · exact wf_filter _ h
  · exact wf_insert (wf_filter _ h) ‹_› (erase_ne m a)

theorem wf_clearRange {m : Memory} (lo hi : Nat) (h : Memory.wf m = true) :
    Memory.wf (Memory.clearRange m lo hi) = true := wf_filter _ h

/-- Writing a slot lists no other address. -/
theorem mem_write {m : Memory} {a : Nat} {v : Word} {e : Nat × Word} (h : e ∈ Memory.write m a v) :
    e.1 = a ∨ e ∈ m := by
  unfold Memory.write at h
  split at h
  · exact .inr (List.mem_filter.1 h).1
  · rcases mem_insert.1 h with rfl | h
    · exact .inl rfl
    · exact .inr (List.mem_filter.1 h).1

end Sys2Proof.Machine
end

