-- ==== Sys2Proof/Laws/Ops.lean ====
section
/-! SUPPORT. What each shared operation can do, said once: later proofs cite these lemmas and do not unfold the
operations. -/
namespace Sys2Proof.Machine

/-! ### Fetch -/

theorem fetchWord_ok {s : State} {w : Word} (h : fetchWord s = .ok w) :
    s.inCS (s.reg pcReg) = true ∧ (s.reg pcReg).toNat < s.cfg.memSize ∧ w = s.slot (s.reg pcReg).toNat := by
  unfold fetchWord at h
  split at h
  · split at h
    · rename_i hcs _ w' hr
      obtain ⟨hlt, rfl⟩ := memRead_some hr
      exact ⟨hcs, hlt, by simpa using h.symm⟩
    · cases h
  · cases h

theorem fetchWord_of {s : State} (hcs : s.inCS (s.reg pcReg) = true)
    (hlt : (s.reg pcReg).toNat < s.cfg.memSize) : fetchWord s = .ok (s.slot (s.reg pcReg).toNat) := by
  simp [fetchWord, hcs, memRead_of_lt hlt]

theorem fetchWord_error {s : State} {c : Cause} (h : fetchWord s = .error c) :
    (s.inCS (s.reg pcReg) = false ∧ c = .pcOutOfCS (s.reg pcReg)) ∨
      (s.inCS (s.reg pcReg) = true ∧ s.cfg.memSize ≤ (s.reg pcReg).toNat ∧
        c = .addressOutOfRange (s.reg pcReg).toNat) := by
  unfold fetchWord at h
  split at h
  · split at h
    · cases h
    · rename_i hcs _ hr
      exact .inr ⟨hcs, memRead_none hr, by simpa using h.symm⟩
  · rename_i hcs
    exact .inl ⟨by simpa using hcs, by simpa using h.symm⟩

/-! ### Retiring -/

theorem finish_next {w : Word} {o : Answer} {t : State} (h : finish w o = .next t) :
    ∃ u, o = .next u ∧ t = if u.status = .running then u.retire w else u := by
  cases o with
  | next u => exact ⟨u, rfl, by simpa [finish] using h.symm⟩
  | fault r => simp [finish] at h
  | refused r => simp [finish] at h

theorem finish_fault {w : Word} {o : Answer} {r : Fault} (h : finish w o = .fault r) : o = .fault r := by
  cases o with
  | next u => simp [finish] at h
  | fault r' => simpa [finish] using h
  | refused r' => simp [finish] at h

/-! ### The ALU's flags -/

theorem nzFlags_not_both (r : Word) : ¬((nzFlags r).n = true ∧ (nzFlags r).z = true) := by
  rintro ⟨hn, hz⟩
  have h0 : r = 0 := by simpa [nzFlags] using hz
  subst h0
  simp [nzFlags] at hn

/-- No ALU operation sets both N and Z. -/
theorem alu_not_both_nz (p : ShiftPolicy) (op : AluOp) (a b : Word) :
    ¬((alu p op a b).flags.n = true ∧ (alu p op a b).flags.z = true) := by
  cases op
  case udiv =>
    by_cases hb : b = 0#32
    · simp [alu, hb, Psr.none]
    · simpa [alu, hb, AluResult.nz] using nzFlags_not_both (a / b)
  case umol =>
    by_cases hb : b = 0#32
    · simp [alu, hb, Psr.none]
    · simpa [alu, hb, AluResult.nz] using nzFlags_not_both (a % b)
  case add => exact nzFlags_not_both (a + b)
  all_goals exact nzFlags_not_both _

/-- Only ADD produces C or V (40_cycle_alu.md R87). -/
theorem alu_cv_of_ne_add {op : AluOp} (p : ShiftPolicy) (a b : Word) (h : op ≠ .add) :
    (alu p op a b).flags.c = false ∧ (alu p op a b).flags.v = false := by
  cases op
  case add => exact absurd rfl h
  case udiv => by_cases hb : b = 0#32 <;> simp [alu, hb, Psr.none, AluResult.nz, nzFlags]
  case umol => by_cases hb : b = 0#32 <;> simp [alu, hb, Psr.none, AluResult.nz, nzFlags]
  all_goals exact ⟨rfl, rfl⟩

/-! ### ALU pass with default writeback -/

theorem aluWriteback_next {op : AluOp} {x : AluInput} {rd : Reg} {s t : State}
    (h : aluWriteback op x rd s = .next t) :
    t = (s.setPsr (alu s.cfg.shiftPolicy op x.a x.b).flags).setReg rd (alu s.cfg.shiftPolicy op x.a x.b).result := by
  unfold aluWriteback at h
  split at h
  · cases h
  · simpa using h.symm

theorem aluWriteback_of {op : AluOp} {x : AluInput} (rd : Reg) {s : State}
    (h : aluStuck s.cfg.shiftPolicy op x.b = false) :
    aluWriteback op x rd s =
      .next ((s.setPsr (alu s.cfg.shiftPolicy op x.a x.b).flags).setReg rd
        (alu s.cfg.shiftPolicy op x.a x.b).result) := by
  simp [aluWriteback, h]

theorem aluStuck_of_not_moves {op : AluOp} (p : ShiftPolicy) (b : Word) (h : op.moves = false) :
    aluStuck p op b = false := by simp [aluStuck, h]

/-! ### Console output -/

/-- All characters in range: they are emitted and nothing else changes. -/
theorem emitWords_of_le (n a : Nat) (s : State) (h : a + n ≤ s.cfg.memSize) :
    emitWords n a s = .next (s.emit ((List.range n).map (fun i => (s.slot (a + i)).setWidth 8))) := by
  induction n generalizing a s with
  | zero => simp [emitWords, State.emit]
  | succ n ih =>
    have hlt : a < s.cfg.memSize := by omega
    simp only [emitWords, memRead_of_lt hlt]
    rw [ih (a + 1) _ (by simpa using (by omega : a + 1 + n ≤ s.cfg.memSize))]
    simp [State.emit, State.slot, List.range_succ_eq_map, Function.comp_def, Nat.add_assoc, Nat.add_comm 1]

/-! ### Console input -/

@[simp] theorem readLine_regs (s : State) : s.readLine.2.regs = s.regs := by unfold State.readLine; split <;> rfl
@[simp] theorem readLine_psr (s : State) : s.readLine.2.psr = s.psr := by unfold State.readLine; split <;> rfl
@[simp] theorem readLine_seg (s : State) : s.readLine.2.seg = s.seg := by unfold State.readLine; split <;> rfl
@[simp] theorem readLine_mem (s : State) : s.readLine.2.mem = s.mem := by unfold State.readLine; split <;> rfl
@[simp] theorem readLine_status (s : State) : s.readLine.2.status = s.status := by
  unfold State.readLine; split <;> rfl
@[simp] theorem readLine_retired (s : State) : s.readLine.2.retired = s.retired := by
  unfold State.readLine; split <;> rfl
@[simp] theorem readLine_cfg (s : State) : s.readLine.2.cfg = s.cfg := by unfold State.readLine; split <;> rfl
@[simp] theorem readLine_consoleOut (s : State) : s.readLine.2.consoleOut = s.consoleOut := by
  unfold State.readLine; split <;> rfl
@[simp] theorem readLine_tracer (s : State) : s.readLine.2.tracer = s.tracer := by
  unfold State.readLine; split <;> rfl
@[simp] theorem readLine_reg (s : State) (r : Reg) : s.readLine.2.reg r = s.reg r := by simp [State.reg]
@[simp] theorem readLine_slot (s : State) (a : Nat) : s.readLine.2.slot a = s.slot a := by simp [State.slot]

/-- All bytes in range: each is in its slot, every other slot and everything but memory is unchanged. -/
theorem storeBytes_of_le (l : List Byte) (a : Nat) (s : State) (h : a + l.length ≤ s.cfg.memSize) :
    ∃ t, storeBytes l a s = .next t ∧ t = { s with mem := t.mem } ∧
      ∀ b, t.slot b =
        if a ≤ b ∧ b < a + l.length then ((l[b - a]?).getD 0).setWidth 32 else s.slot b := by
  induction l generalizing a s with
  | nil => exact ⟨s, rfl, rfl, fun b => by simp⟩
  | cons x rest ih =>
    have hlen : a + (rest.length + 1) ≤ s.cfg.memSize := by simpa using h
    have hlt : a < s.cfg.memSize := by omega
    obtain ⟨t, ht, hf, hs⟩ := ih (a + 1) (s.setSlot a (x.setWidth 32)) (by simpa using by omega)
    refine ⟨t, by simp only [storeBytes, memWrite_of_lt _ hlt, ht], ?_, ?_⟩
    · rw [hf]; rfl
    · intro b
      rw [hs b, setSlot_slot]
      by_cases hb : b = a
      · subst hb
        simp
      · by_cases hin : a ≤ b ∧ b < a + (rest.length + 1)
        · have h1 : a + 1 ≤ b ∧ b < a + 1 + rest.length := by omega
          have h2 : b - a = (b - (a + 1)) + 1 := by omega
          rw [if_pos h1, if_pos (by simpa using hin), h2]
          simp
        · have h1 : ¬(a + 1 ≤ b ∧ b < a + 1 + rest.length) := by omega
          rw [if_neg h1, if_neg hb, if_neg (by simpa using hin)]

/-- A failed check of clear reports the address; it stops a run that has not ended, and changes nothing after the end. -/
theorem clearFails_eq (a : Nat) (s : State) :
    clearFails a s =
      .fault (.fatal (.addressOutOfRange a) (if s.status.ended then s else s.stopped .addressOutOfRange)) := by
  unfold clearFails
  split <;> simp_all [raise, Cause.kind]

/-- clear(begin, end) in range: a next state that differs in memory alone. -/
theorem clearRange_of_lt {lo hi : Nat} {s : State} (hl : lo < s.cfg.memSize) (hh : hi < s.cfg.memSize) :
    clearRange lo hi s = .next { s with mem := Memory.clearRange s.mem lo hi } := by
  simp [clearRange, Nat.not_le.2 hl, Nat.not_le.2 hh]

/-- clear(begin, end) out of range fails with begin, or with end when begin is in range. -/
theorem clearRange_of_le {lo hi : Nat} {s : State} (h : s.cfg.memSize ≤ lo ∨ s.cfg.memSize ≤ hi) :
    clearRange lo hi s = clearFails (if s.cfg.memSize ≤ lo then lo else hi) s := by
  unfold clearRange
  by_cases hl : s.cfg.memSize ≤ lo
  · simp [hl]
  · simp [hl, h.resolve_left hl]

/-- An image that fits is stored word by word. -/
theorem loadImage_of_le {image : List Word} {g : Segment} {s : State} (h : image.length ≤ g.size) :
    loadImage image g s = storeWords image g.start.toNat s := by
  simp [loadImage, Nat.not_lt.2 h]

/-- The load port's loop: each word is in its slot, every other slot and everything but memory is unchanged. -/
theorem storeWords_of_le (l : List Word) (a : Nat) (s : State) (h : a + l.length ≤ s.cfg.memSize) :
    ∃ t, storeWords l a s = .next t ∧ t = { s with mem := t.mem } ∧
      ∀ b, t.slot b = if a ≤ b ∧ b < a + l.length then (l[b - a]?).getD 0 else s.slot b := by
  induction l generalizing a s with
  | nil => exact ⟨s, rfl, rfl, fun b => by simp⟩
  | cons x rest ih =>
    have hlen : a + (rest.length + 1) ≤ s.cfg.memSize := by simpa using h
    have hlt : a < s.cfg.memSize := by omega
    obtain ⟨t, ht, hf, hs⟩ := ih (a + 1) (s.setSlot a x) (by simpa using by omega)
    refine ⟨t, by simp only [storeWords, memWrite_of_lt _ hlt, ht], ?_, ?_⟩
    · rw [hf]; rfl
    · intro b
      rw [hs b, setSlot_slot]
      by_cases hb : b = a
      · subst hb
        simp
      · by_cases hin : a ≤ b ∧ b < a + (rest.length + 1)
        · have h1 : a + 1 ≤ b ∧ b < a + 1 + rest.length := by omega
          have h2 : b - a = (b - (a + 1)) + 1 := by omega
          rw [if_pos h1, if_pos (by simpa using hin), h2]
          simp
        · have h1 : ¬(a + 1 ≤ b ∧ b < a + 1 + rest.length) := by omega
          rw [if_neg h1, if_neg hb, if_neg (by simpa using hin)]

end Sys2Proof.Machine
end

