-- ==== Sys2Proof/Laws/Exec.lean ====
section
/-! SUPPORT. What an instruction can do to a property of the state, said once for all instructions, and the step's
inversion. -/
namespace Sys2Proof.Machine

/-- The answer keeps P: its next state has it, and so has the state before the fatal stop it may leave. It is no
refusal. -/
def Keeps (P : State → Prop) : Answer → Prop
  | .next t => P t
  | .fault (.fatal c left) => ∃ u, P u ∧ left = u.stopped c.kind
  | .fault (.notRunning _) => True
  | .fault (.shiftAmountOpen _) => True
  | .fault (.portClosed _) => True
  | .refused _ => False

/-- A property that the elementary updates of a step keep. -/
structure Closed (P : State → Prop) : Prop where
  setReg : ∀ s r v, P s → P (s.setReg r v)
  setPsr : ∀ s f, ¬(f.n = true ∧ f.z = true) → P s → P (s.setPsr f)
  setSlot : ∀ s a v, a < s.cfg.memSize → P s → P (s.setSlot a v)
  emit : ∀ s bs, P s → P (s.emit bs)
  readLine : ∀ s, P s → P s.readLine.2

theorem raise_keeps {P : State → Prop} (c : Cause) {s : State} (h : P s) : Keeps P (raise c s) := ⟨s, h, rfl⟩

variable {P : State → Prop} (hP : Closed P)
include hP

theorem aluWriteback_keeps (op : AluOp) (x : AluInput) (rd : Reg) (s : State) (h : P s) :
    Keeps P (aluWriteback op x rd s) := by
  unfold aluWriteback
  split
  · trivial
  · exact hP.setReg _ _ _ (hP.setPsr _ _ (alu_not_both_nz _ _ _ _) h)

theorem jumpIf_keeps (taken : Bool) (imm : Imm) (s : State) (h : P s) : Keeps P (jumpIf taken imm s) := by
  cases taken
  · exact h
  · exact hP.setReg _ _ _ h

theorem emitWords_keeps (n a : Nat) (s : State) (h : P s) : Keeps P (emitWords n a s) := by
  induction n generalizing a s with
  | zero => exact h
  | succ n ih =>
    unfold emitWords
    split
    · exact ih _ _ (hP.emit _ _ h)
    · exact raise_keeps _ h

theorem storeBytes_keeps (l : List Byte) (a : Nat) (s : State) (h : P s) : Keeps P (storeBytes l a s) := by
  induction l generalizing a s with
  | nil => exact h
  | cons b rest ih =>
    unfold storeBytes
    split
    · rename_i s1 hw
      obtain ⟨hlt, rfl⟩ := memWrite_some hw
      exact ih _ _ (hP.setSlot _ _ _ hlt h)
    · exact raise_keeps _ h

theorem execLdr_keeps (rd rm : Reg) (s : State) (h : P s) : Keeps P (execLdr rd rm s) := by
  have h1 := hP.setPsr s (effectiveAddress rm s).flags (alu_not_both_nz _ _ _ _) h
  unfold execLdr
  dsimp only
  split
  · exact hP.setReg _ _ _ h1
  · exact raise_keeps _ h1

theorem execStr_keeps (rd rm : Reg) (s : State) (h : P s) : Keeps P (execStr rd rm s) := by
  have h1 := hP.setPsr s (effectiveAddress rm s).flags (alu_not_both_nz _ _ _ _) h
  unfold execStr
  dsimp only
  split
  · rename_i s2 hw
    obtain ⟨hlt, rfl⟩ := memWrite_some hw
    exact hP.setSlot _ _ _ hlt h1
  · exact raise_keeps _ h1

theorem execPush_keeps (rd : Reg) (s : State) (h : P s) : Keeps P (execPush rd s) := by
  have h1 := hP.setPsr s (pushPointer s).flags (alu_not_both_nz _ _ _ _) h
  unfold execPush
  dsimp only
  split
  · split
    · rename_i s2 hw
      obtain ⟨hlt, rfl⟩ := memWrite_some hw
      exact hP.setReg _ _ _ (hP.setSlot _ _ _ hlt h1)
    · exact raise_keeps _ h1
  · exact raise_keeps _ h1

theorem execPop_keeps (rd : Reg) (s : State) (h : P s) : Keeps P (execPop rd s) := by
  have h1 := hP.setPsr s (popPointer s).flags (alu_not_both_nz _ _ _ _) h
  unfold execPop
  dsimp only
  split
  · split
    · exact hP.setReg _ _ _ (hP.setReg _ _ _ h1)
    · exact raise_keeps _ h1
  · exact h1

theorem execSyscall_keeps (imm : Imm) (s : State) (h : P s) : Keeps P (execSyscall imm s) := by
  unfold execSyscall
  split
  · exact hP.emit _ _ h
  · split
    · exact emitWords_keeps hP _ _ _ h
    · split
      · unfold consoleInCall
        dsimp only
        split
        · exact raise_keeps _ (hP.readLine _ h)
        · exact storeBytes_keeps hP _ _ _ (hP.readLine _ h)
      · exact raise_keeps _ h

/-- Every instruction but the terminator keeps what the elementary updates keep. -/
theorem exec_keeps (i : Instr) (hi : i ≠ .halt) (s : State) (h : P s) : Keeps P (exec i s) := by
  cases i
  case halt => exact absurd rfl hi
  case ldr => exact execLdr_keeps hP _ _ _ h
  case str => exact execStr_keeps hP _ _ _ h
  case push => exact execPush_keeps hP _ _ h
  case pop => exact execPop_keeps hP _ _ h
  case syscall => exact execSyscall_keeps hP _ _ h
  case jmp => exact jumpIf_keeps hP _ _ _ h
  case jz => exact jumpIf_keeps hP _ _ _ h
  case jn => exact jumpIf_keeps hP _ _ _ h
  case jc => exact jumpIf_keeps hP _ _ _ h
  case jv => exact jumpIf_keeps hP _ _ _ h
  case jzn => exact jumpIf_keeps hP _ _ _ h
  all_goals
    simp only [exec,
      execAdd, execAddi, execUmul, execUmuli, execUdiv, execUdivi, execUmol, execUmoli, execAnd, execAndi,
    execOrr, execOrri, execXor, execXori, execShl, execShli, execShr, execShri, execRtl, execRtli, execRtr,
    execRtri, execNot]
    exact aluWriteback_keeps hP _ _ _ _ h

omit hP

/-- The terminator's whole effect. -/
theorem exec_halt (s : State) : exec .halt s = .next { s with status := .halted } := rfl

/-- The state before the fatal stop of an instruction, or its next state, agrees with s on these fields. -/
theorem closed_control (s : State) :
    Closed (fun t => t.seg = s.seg ∧ t.status = s.status ∧ t.retired = s.retired ∧ t.cfg = s.cfg ∧
      t.tracer = s.tracer) where
  setReg _ _ _ h := h
  setPsr _ _ _ h := h
  setSlot _ _ _ _ h := h
  emit _ _ h := h
  readLine _ h := by simpa using h

/-- No instruction but the terminator touches the segment map, the status, the count, the parameters or the tracer. -/
theorem exec_control {i : Instr} (hi : i ≠ .halt) {s t : State} (h : exec i s = .next t) : SameControl s t := by
  have hk := exec_keeps (closed_control s) i hi s ⟨rfl, rfl, rfl, rfl, rfl⟩
  rw [h] at hk
  obtain ⟨h1, h2, h3, h4, h5⟩ := hk
  exact ⟨h1, h2, h3, h4, h5⟩

/-- What a step that answers a next state did. -/
theorem step_next {s t : State} (h : step s = .next t) :
    ∃ w i u, s.status = .running ∧ fetchWord s = .ok w ∧ decode s.cfg.enc w = .ok i ∧
      exec i s.advancePc = .next u ∧ t = if u.status = .running then u.retire w else u := by
  unfold step at h
  split at h
  · rename_i hrun
    split at h
    · cases h
    · rename_i w hw
      split at h
      · rename_i i hd
        obtain ⟨u, hu, ht⟩ := finish_next h
        exact ⟨w, i, u, hrun, hw, hd, hu, ht⟩
      · cases h
  · cases h

/-- Why a step stopped. -/
theorem step_fault {s : State} {r : Fault} (h : step s = .fault r) :
    (s.status ≠ .running ∧ r = .notRunning s.status) ∨
      (s.status = .running ∧
        ((∃ c, fetchWord s = .error c ∧ r = .fatal c (s.stopped c.kind)) ∨
          (∃ w, fetchWord s = .ok w ∧
            ((∃ ty c, decode s.cfg.enc w = .error (.unknownOpCode ty c) ∧
                r = .fatal (.unknownOpCode ty c) (s.advancePc.stopped .unknownOpCode)) ∨
              (∃ i, decode s.cfg.enc w = .ok i ∧ exec i s.advancePc = .fault r))))) := by
  unfold step at h
  split at h
  · rename_i hrun
    refine .inr ⟨hrun, ?_⟩
    split at h
    · rename_i c hc
      exact .inl ⟨c, hc, by simpa [raise] using h.symm⟩
    · rename_i w hw
      refine .inr ⟨w, hw, ?_⟩
      split at h
      · rename_i i hd
        exact .inr ⟨i, hd, finish_fault h⟩
      · rename_i ty c hd
        exact .inl ⟨ty, c, hd, by simpa [raise, Cause.kind] using h.symm⟩
  · rename_i hrun
    exact .inl ⟨hrun, by simpa using h.symm⟩

/-- No instruction is refused. -/
theorem exec_not_refused (i : Instr) (s : State) (r : Refusal) : exec i s ≠ .refused r := by
  intro h
  by_cases hi : i = .halt
  · subst hi; cases h
  · have hk := exec_keeps (P := fun _ => True) ⟨by simp, by simp, by simp, by simp, by simp⟩ i hi s trivial
    rw [h] at hk
    exact hk

end Sys2Proof.Machine
end

