-- ==== Sys2Proof/Laws/PerInstr.lean ====
section
/-! SUPPORT. The family TableRow, one lemma per instruction: its encoded word carries the match value of its row of the
opcode map (30_encoding.md R75) in the bits the row's mask names. -/
namespace Sys2Proof.Laws

/-- The match column of R75, and the terminator word for HALT (R70). -/
def rowMatch : Instr → Nat
  | .add _ _ _ => 0x061
  | .addi _ _ _ => 0x060
  | .umul _ _ _ => 0x071
  | .umuli _ _ _ => 0x070
  | .udiv _ _ _ => 0x081
  | .udivi _ _ _ => 0x080
  | .umol _ _ _ => 0x091
  | .umoli _ _ _ => 0x090
  | .and _ _ _ => 0x0A1
  | .andi _ _ _ => 0x0A0
  | .orr _ _ _ => 0x0B1
  | .orri _ _ _ => 0x0B0
  | .xor _ _ _ => 0x0C1
  | .xori _ _ _ => 0x0C0
  | .shl _ _ _ => 0x0D1
  | .shli _ _ _ => 0x0D0
  | .shr _ _ _ => 0x0E1
  | .shri _ _ _ => 0x0E0
  | .rtl _ _ _ => 0x0F1
  | .rtli _ _ _ => 0x0F0
  | .rtr _ _ _ => 0x101
  | .rtri _ _ _ => 0x100
  | .not _ _ => 0x112
  | .ldr _ _ => 0x122
  | .str _ _ => 0x132
  | .push _ => 0x143
  | .pop _ => 0x153
  | .jmp _ => 0x004
  | .jz _ => 0x014
  | .jn _ => 0x024
  | .jc _ => 0x034
  | .jv _ => 0x044
  | .jzn _ => 0x054
  | .syscall _ => 0x164
  | .halt => 0xFFFFFFFF

/-- The mask column: 0x00000FFF for every row but HALT's. -/
def rowModulus : Instr → Nat
  | .add _ _ _ => 4096
  | .addi _ _ _ => 4096
  | .umul _ _ _ => 4096
  | .umuli _ _ _ => 4096
  | .udiv _ _ _ => 4096
  | .udivi _ _ _ => 4096
  | .umol _ _ _ => 4096
  | .umoli _ _ _ => 4096
  | .and _ _ _ => 4096
  | .andi _ _ _ => 4096
  | .orr _ _ _ => 4096
  | .orri _ _ _ => 4096
  | .xor _ _ _ => 4096
  | .xori _ _ _ => 4096
  | .shl _ _ _ => 4096
  | .shli _ _ _ => 4096
  | .shr _ _ _ => 4096
  | .shri _ _ _ => 4096
  | .rtl _ _ _ => 4096
  | .rtli _ _ _ => 4096
  | .rtr _ _ _ => 4096
  | .rtri _ _ _ => 4096
  | .not _ _ => 4096
  | .ldr _ _ => 4096
  | .str _ _ => 4096
  | .push _ => 4096
  | .pop _ => 4096
  | .jmp _ => 4096
  | .jz _ => 4096
  | .jn _ => 4096
  | .jc _ => 4096
  | .jv _ => 4096
  | .jzn _ => 4096
  | .syscall _ => 4096
  | .halt => 4294967296

theorem toWord_low (d : Fields) : d.toWord.toNat % 4096 = d.code.toNat * 16 + d.type.toNat := by
  have h1 := d.type.isLt
  have h2 := d.code.isLt
  rw [Fields.toWord_toNat]; omega

/-- w & mask = match, as numbers. -/
def TableRow.Statement (i : Instr) : Prop :=
  (encode Encoding.standard i).toNat % rowModulus i = rowMatch i

theorem TableRow.add (rd rm rn : Reg) : TableRow.Statement (.add rd rm rn) := toWord_low _
theorem TableRow.addi (rd rm : Reg) (imm : Imm) : TableRow.Statement (.addi rd rm imm) := toWord_low _
theorem TableRow.umul (rd rm rn : Reg) : TableRow.Statement (.umul rd rm rn) := toWord_low _
theorem TableRow.umuli (rd rm : Reg) (imm : Imm) : TableRow.Statement (.umuli rd rm imm) := toWord_low _
theorem TableRow.udiv (rd rm rn : Reg) : TableRow.Statement (.udiv rd rm rn) := toWord_low _
theorem TableRow.udivi (rd rm : Reg) (imm : Imm) : TableRow.Statement (.udivi rd rm imm) := toWord_low _
theorem TableRow.umol (rd rm rn : Reg) : TableRow.Statement (.umol rd rm rn) := toWord_low _
theorem TableRow.umoli (rd rm : Reg) (imm : Imm) : TableRow.Statement (.umoli rd rm imm) := toWord_low _
theorem TableRow.and (rd rm rn : Reg) : TableRow.Statement (.and rd rm rn) := toWord_low _
theorem TableRow.andi (rd rm : Reg) (imm : Imm) : TableRow.Statement (.andi rd rm imm) := toWord_low _
theorem TableRow.orr (rd rm rn : Reg) : TableRow.Statement (.orr rd rm rn) := toWord_low _
theorem TableRow.orri (rd rm : Reg) (imm : Imm) : TableRow.Statement (.orri rd rm imm) := toWord_low _
theorem TableRow.xor (rd rm rn : Reg) : TableRow.Statement (.xor rd rm rn) := toWord_low _
theorem TableRow.xori (rd rm : Reg) (imm : Imm) : TableRow.Statement (.xori rd rm imm) := toWord_low _
theorem TableRow.shl (rd rm rn : Reg) : TableRow.Statement (.shl rd rm rn) := toWord_low _
theorem TableRow.shli (rd rm : Reg) (imm : Imm) : TableRow.Statement (.shli rd rm imm) := toWord_low _
theorem TableRow.shr (rd rm rn : Reg) : TableRow.Statement (.shr rd rm rn) := toWord_low _
theorem TableRow.shri (rd rm : Reg) (imm : Imm) : TableRow.Statement (.shri rd rm imm) := toWord_low _
theorem TableRow.rtl (rd rm rn : Reg) : TableRow.Statement (.rtl rd rm rn) := toWord_low _
theorem TableRow.rtli (rd rm : Reg) (imm : Imm) : TableRow.Statement (.rtli rd rm imm) := toWord_low _
theorem TableRow.rtr (rd rm rn : Reg) : TableRow.Statement (.rtr rd rm rn) := toWord_low _
theorem TableRow.rtri (rd rm : Reg) (imm : Imm) : TableRow.Statement (.rtri rd rm imm) := toWord_low _
theorem TableRow.not (rd rm : Reg) : TableRow.Statement (.not rd rm) := toWord_low _
theorem TableRow.ldr (rd rm : Reg) : TableRow.Statement (.ldr rd rm) := toWord_low _
theorem TableRow.str (rd rm : Reg) : TableRow.Statement (.str rd rm) := toWord_low _
theorem TableRow.push (rd : Reg) : TableRow.Statement (.push rd) := toWord_low _
theorem TableRow.pop (rd : Reg) : TableRow.Statement (.pop rd) := toWord_low _
theorem TableRow.jmp (imm : Imm) : TableRow.Statement (.jmp imm) := toWord_low _
theorem TableRow.jz (imm : Imm) : TableRow.Statement (.jz imm) := toWord_low _
theorem TableRow.jn (imm : Imm) : TableRow.Statement (.jn imm) := toWord_low _
theorem TableRow.jc (imm : Imm) : TableRow.Statement (.jc imm) := toWord_low _
theorem TableRow.jv (imm : Imm) : TableRow.Statement (.jv imm) := toWord_low _
theorem TableRow.jzn (imm : Imm) : TableRow.Statement (.jzn imm) := toWord_low _
theorem TableRow.syscall (imm : Imm) : TableRow.Statement (.syscall imm) := toWord_low _
theorem TableRow.halt : TableRow.Statement .halt := by unfold TableRow.Statement; decide

end Sys2Proof.Laws
end

