-- ==== Sys2Proof/Tests/Slice0.lean ====
section
/-! SUPPORT. The model's own tests, on the words and results of the spec's examples (files 41 to 44) and test vectors (file
95), the checks of WellFormed on ill-formed terms, and a witness for every statement that has hypotheses. -/
namespace Sys2Proof.Tests
open Sys2Proof Sys2Proof.Machine

/-! ### Helpers -/

/-- Scenario S1's setting: MEM_SIZE 50, SP = 31, PC = 0. -/
def s1 : State := State.reset.configured s1Map

/-- S1 with a word at address 0. -/
def at0 (w : Nat) (s : State) : State := s.setSlot 0 (BitVec.ofNat 32 w)

/-- One step from address 0. -/
def run1 (w : Nat) (s : State) : Answer := step (at0 w s)

/-- The state reached, or the state a fatal stop leaves. -/
def landed : Answer → Option State
  | .next t => some t
  | .fault (.fatal _ t) => some t
  | .fault (.notRunning _) => none
  | .fault (.shiftAmountOpen _) => none
  | .fault (.portClosed _) => none
  | .refused _ => none

/-- What a test looks at: the status, some registers, the PC, the PSR and some slots. -/
def view (rs : List Reg) (as : List Nat) (o : Answer) : Option (RunStatus × List Word × Word × Psr × List Word) :=
  (landed o).map (fun t => (t.status, rs.map t.reg, t.reg pcReg, t.psr, as.map t.slot))

/-- The four flags in the vectors' order N Z C V. -/
def flags (n z c v : Bool) : Psr := ⟨n, z, c, v⟩

/-- No flag. -/
def quiet : Psr := ⟨false, false, false, false⟩

/-- Text as bytes. -/
def bytes (l : List Char) : List Byte := l.map (fun c => BitVec.ofNat 8 c.toNat)

/-! ### Decoding: one word for every constructor, from the examples of R120 to R177 and R70 -/

theorem test_decode_rt :
    decodeTableWord 32 0x00213061 = some (.add 3 1 2) ∧ decodeTableWord 32 0x00213071 = some (.umul 3 1 2) ∧
    decodeTableWord 32 0x00213081 = some (.udiv 3 1 2) ∧ decodeTableWord 32 0x00213091 = some (.umol 3 1 2) ∧
    decodeTableWord 32 0x002130A1 = some (.and 3 1 2) ∧ decodeTableWord 32 0x002130B1 = some (.orr 3 1 2) ∧
    decodeTableWord 32 0x002130C1 = some (.xor 3 1 2) ∧ decodeTableWord 32 0x002130D1 = some (.shl 3 1 2) ∧
    decodeTableWord 32 0x002130E1 = some (.shr 3 1 2) ∧ decodeTableWord 32 0x002130F1 = some (.rtl 3 1 2) ∧
    decodeTableWord 32 0x00213101 = some (.rtr 3 1 2) := by decide

theorem test_decode_it :
    decodeTableWord 32 0x00111060 = some (.addi 1 1 1) ∧ decodeTableWord 32 0x00324070 = some (.umuli 4 2 3) ∧
    decodeTableWord 32 0x00024080 = some (.udivi 4 2 0) ∧ decodeTableWord 32 0x00A24090 = some (.umoli 4 2 10) ∧
    decodeTableWord 32 0xFFF240A0 = some (.andi 4 2 4095) ∧ decodeTableWord 32 0x00F240B0 = some (.orri 4 2 15) ∧
    decodeTableWord 32 0xFFF240C0 = some (.xori 4 2 4095) ∧ decodeTableWord 32 0x020240D0 = some (.shli 4 2 32) ∧
    decodeTableWord 32 0x004240E0 = some (.shri 4 2 4) ∧ decodeTableWord 32 0x004240F0 = some (.rtli 4 2 4) ∧
    decodeTableWord 32 0x02424100 = some (.rtri 4 2 36) := by decide

theorem test_decode_ut_st :
    decodeTableWord 32 0x00021112 = some (.not 1 2) ∧ decodeTableWord 32 0x00012122 = some (.ldr 2 1) ∧
    decodeTableWord 32 0x00012132 = some (.str 2 1) ∧ decodeTableWord 32 0x00003143 = some (.push 3) ∧
    decodeTableWord 32 0x00005153 = some (.pop 5) := by decide

theorem test_decode_jt :
    decodeTableWord 32 0x00500004 = some (.jmp 5) ∧ decodeTableWord 32 0x00A00014 = some (.jz 10) ∧
    decodeTableWord 32 0x00A00024 = some (.jn 10) ∧ decodeTableWord 32 0x00A00034 = some (.jc 10) ∧
    decodeTableWord 32 0x00A00044 = some (.jv 10) ∧ decodeTableWord 32 0x00A00054 = some (.jzn 10) ∧
    decodeTableWord 32 0x00100164 = some (.syscall 1) ∧ decodeTableWord 32 0xFFFFFFFF = some .halt := by decide

/-- V-ENC-8 to V-ENC-13. -/
theorem test_decode_rejects :
    decodeTableWord 32 0x000000FF = none ∧ decodeTableWord 32 0x00000121 = none ∧
    decodeTableWord 32 0x00000062 = none ∧ decodeTableWord 32 0x00000174 = none ∧
    decodeTableWord 32 0xABC00143 = some (.push 0) ∧ decodeTableWord 32 0x00000000 = none := by decide

/-- V-ENC-1, 3, 5, 6: the encoder gives the words the spec writes out. -/
theorem test_encode :
    encode Encoding.standard (.addi 1 1 1) = 0x00111060#32 ∧ encode Encoding.standard (.andi 4 2 4095) = 0xFFF240A0#32 ∧
    encode Encoding.standard (.pop 5) = 0x00005153#32 ∧ encode Encoding.standard (.jz 10) = 0x00A00014#32 ∧
    encode Encoding.standard (.add 3 1 2) = 0x00213061#32 := by decide

/-- V-ENC-12's fields: Rn shares its bits with imm. -/
theorem test_fields : (Fields.ofWord 0xABC00143#32).imm = 0xABC#12 ∧ (Fields.ofWord 0xABC00143#32).rn = 12 ∧
    (Fields.ofWord 0xABC00143#32).code = 20#8 := by decide

/-! ### WellFormed: an ill-formed term for each check -/

theorem test_wf_standard : resetConfig.wf = true := by decide

theorem test_wf_types_repeat :
    Encoding.wf { Encoding.standard with types := { Encoding.standard.types with jt := 3 } } = false := by decide

theorem test_wf_codes_repeat :
    Encoding.wf { Encoding.standard with codes := { Encoding.standard.codes with syscall := 21 } } = false := by decide

theorem test_wf_it_not_zero :
    Encoding.wf { Encoding.standard with types := { Encoding.standard.types with it := 5 } } = false := by decide

theorem test_wf_add_not_six :
    Encoding.wf { Encoding.standard with codes := { Encoding.standard.codes with add := 99 } } = false := by decide

theorem test_wf_no_memory : Config.wf { resetConfig with memSize := 0 } = false := by decide

theorem test_wf_memory_too_large : Config.wf { resetConfig with memSize := 4294967297 } = false := by decide

theorem test_wf_config_tables :
    Config.wf { resetConfig with enc := { Encoding.standard with codes := { Encoding.standard.codes with add := 99 } } } =
      false := by decide

/-! ### One step of each instruction: 41_alu_instructions.md -/

theorem test_add : view [3] [] (run1 0x00213061 ((s1.setReg 1 0xFFFFFFFF).setReg 2 1)) =
    some (.running, [0], 1, flags false true true false, []) := by decide

/-- V-I-8: operands are read before the write. -/
theorem test_add_in_place : view [1] [] (run1 0x00111061 (s1.setReg 1 4)) = some (.running, [8], 1, quiet, []) := by
  decide

/-- V-I-3. -/
theorem test_addi_overflow : view [2] [] (run1 0x00112060 (s1.setReg 1 0x7FFFFFFF)) =
    some (.running, [0x80000000], 1, flags true false false true, []) := by decide

/-- V-I-10: a write to PC is a jump. -/
theorem test_addi_pc : view [] [] (run1 0x0001F060 (s1.setReg 1 20)) = some (.running, [], 20, quiet, []) := by decide

theorem test_umul : view [3] [] (run1 0x00213071 ((s1.setReg 1 0x12345).setReg 2 0x10000)) =
    some (.running, [0x23450000], 1, quiet, []) := by decide

theorem test_umuli : view [4] [] (run1 0x00324070 (s1.setReg 2 0x10000000)) =
    some (.running, [0x30000000], 1, quiet, []) := by decide

theorem test_udiv : view [3] [] (run1 0x00213081 ((s1.setReg 1 100).setReg 2 7)) =
    some (.running, [14], 1, quiet, []) := by decide

/-- R125's example: a divisor of 0 gives 0 and no Z. -/
theorem test_udivi_zero : view [4] [] (run1 0x00024080 ((s1.setReg 2 0x4D2).setPsr (flags true false true true))) =
    some (.running, [0], 1, quiet, []) := by decide

theorem test_umol : view [3] [] (run1 0x00213091 ((s1.setReg 1 100).setReg 2 7)) =
    some (.running, [2], 1, quiet, []) := by decide

theorem test_umoli : view [4] [] (run1 0x00A24090 (s1.setReg 2 0x4D2)) = some (.running, [4], 1, quiet, []) := by decide

theorem test_and : view [3] [] (run1 0x002130A1 ((s1.setReg 1 0xF0F0F0F0).setReg 2 0xFF00FF00)) =
    some (.running, [0xF000F000], 1, flags true false false false, []) := by decide

theorem test_andi : view [4] [] (run1 0xFFF240A0 (s1.setReg 2 0x8000ABCD)) = some (.running, [0xBCD], 1, quiet, []) := by
  decide

theorem test_orr : view [3] [] (run1 0x002130B1 ((s1.setReg 1 0xF0F0F0F0).setReg 2 0x0F0F0F0F)) =
    some (.running, [0xFFFFFFFF], 1, flags true false false false, []) := by decide

theorem test_orri : view [4] [] (run1 0x00F240B0 (s1.setReg 2 0x80000000)) =
    some (.running, [0x8000000F], 1, flags true false false false, []) := by decide

theorem test_xor : view [3] [] (run1 0x002130C1 ((s1.setReg 1 0xAAAA5555).setReg 2 0xAAAA5555)) =
    some (.running, [0], 1, flags false true false false, []) := by decide

theorem test_xori : view [4] [] (run1 0xFFF240C0 (s1.setReg 2 0xFFF)) =
    some (.running, [0], 1, flags false true false false, []) := by decide

theorem test_shl : view [3] [] (run1 0x002130D1 ((s1.setReg 1 0x80000001).setReg 2 1)) =
    some (.running, [2], 1, quiet, []) := by decide

theorem test_shli_whole_width : view [4] [] (run1 0x020240D0 (s1.setReg 2 0x12345678)) =
    some (.running, [0], 1, flags false true false false, []) := by decide

theorem test_shr : view [3] [] (run1 0x002130E1 ((s1.setReg 1 0x80000000).setReg 2 31)) =
    some (.running, [1], 1, quiet, []) := by decide

theorem test_shri : view [4] [] (run1 0x004240E0 (s1.setReg 2 0x12345678)) =
    some (.running, [0x01234567], 1, quiet, []) := by decide

theorem test_rtl : view [3] [] (run1 0x002130F1 ((s1.setReg 1 0x80000001).setReg 2 1)) =
    some (.running, [3], 1, quiet, []) := by decide

theorem test_rtli : view [4] [] (run1 0x004240F0 (s1.setReg 2 0x12345678)) =
    some (.running, [0x23456781], 1, quiet, []) := by decide

theorem test_rtr : view [3] [] (run1 0x00213101 ((s1.setReg 1 1).setReg 2 1)) =
    some (.running, [0x80000000], 1, flags true false false false, []) := by decide

theorem test_rtri : view [4] [] (run1 0x02424100 (s1.setReg 2 0x12345678)) =
    some (.running, [0x81234567], 1, flags true false false false, []) := by decide

/-! ### 42_unary_memory.md -/

theorem test_not : view [0] [] (run1 0x00000112 (s1.setReg 0 4)) =
    some (.running, [0xFFFFFFFB], 1, flags true false false false, []) := by decide

/-- V-U-2: the flags come from the address. -/
theorem test_ldr : view [2] [31] (run1 0x00012122 ((s1.setReg 1 31).setSlot 31 104)) =
    some (.running, [104], 1, quiet, [104]) := by decide

/-- V-U-6: the first address that does not exist. -/
theorem test_ldr_out_of_range : view [2] [] (run1 0x00012122 (s1.setReg 1 50)) =
    some (.fatal .addressOutOfRange, [0], 1, quiet, []) := by decide

/-- V-U-4. -/
theorem test_str : view [2] [31] (run1 0x00012132 ((s1.setReg 1 31).setReg 2 0x80000000)) =
    some (.running, [0x80000000], 1, quiet, [0x80000000]) := by decide

/-- V-U-7: N from the address, then the stop. -/
theorem test_str_out_of_range : view [2] [0] (run1 0x00012132 ((s1.setReg 1 0xFFFFFFFF).setReg 2 9)) =
    some (.fatal .addressOutOfRange, [9], 1, flags true false false false, [0x00012132]) := by decide

/-! ### 43_stack.md -/

/-- V-S-1. -/
theorem test_push : view [spReg] [30] (run1 0x00003143 (s1.setReg 3 0x1234)) =
    some (.running, [30], 1, flags false false true false, [0x1234]) := by decide

/-- V-S-2: the stack is full. -/
theorem test_push_full : view [spReg] [24] (run1 0x00003143 ((s1.setReg spReg 25).setReg 3 1)) =
    some (.fatal .stackOverflow, [25], 1, flags false false true false, [0]) := by decide

/-- V-S-3: the stack is empty. -/
theorem test_pop_empty : view [5, spReg] [] (run1 0x00005153 (s1.setPsr (flags false true true true))) =
    some (.running, [0, 31], 1, quiet, []) := by decide

/-- V-S-6: a pop into SP loses the word. -/
theorem test_pop_sp : view [spReg] [30] (run1 0x0000D153 ((s1.setReg spReg 30).setSlot 30 153)) =
    some (.running, [31], 1, quiet, [153]) := by decide

/-! ### 44_control.md -/

/-- V-J-1. -/
theorem test_jmp : view [] [] (run1 0x00500004 (s1.setPsr (flags true false true false))) =
    some (.running, [], 5, flags true false true false, []) := by decide

/-- V-J-2. -/
theorem test_jz : view [] [] (run1 0x00A00014 (s1.setPsr (flags false true false false))) =
    some (.running, [], 10, flags false true false false, []) := by decide

/-- V-J-3. -/
theorem test_jz_not_taken : view [] [] (run1 0x00A00014 s1) = some (.running, [], 1, quiet, []) := by decide

/-- V-J-4. -/
theorem test_jn : view [] [] (run1 0x00A00024 (s1.setPsr (flags true false false false))) =
    some (.running, [], 10, flags true false false false, []) := by decide

/-- V-J-5. -/
theorem test_jc : view [] [] (run1 0x00A00034 (s1.setPsr (flags false false true false))) =
    some (.running, [], 10, flags false false true false, []) := by decide

/-- V-J-6. -/
theorem test_jv_not_taken : view [] [] (run1 0x00A00044 (s1.setPsr (flags false true true false))) =
    some (.running, [], 1, flags false true true false, []) := by decide

/-- V-J-7. -/
theorem test_jzn : view [] [] (run1 0x00A00054 (s1.setPsr (flags true false false false))) =
    some (.running, [], 10, flags true false false false, []) := by decide

/-- V-J-8. -/
theorem test_jzn_not_taken : view [] [] (run1 0x00A00054 (s1.setPsr (flags false false true true))) =
    some (.running, [], 1, flags false false true true, []) := by decide

/-- V-J-11: only the low byte of a word is output. -/
theorem test_console_out :
    (landed (run1 0x00100164 ((((s1.setReg 0 31).setReg 1 2).setSlot 31 104).setSlot 32 0x169))).map State.consoleOut =
      some (bytes ['h', 'i']) := by decide

/-- V-J-13: A is emitted before the stop. -/
theorem test_console_out_stop :
    (landed (run1 0x00100164 (((s1.setReg 0 49).setReg 1 2).setSlot 49 65))).map (fun t => (t.status, t.consoleOut)) =
      some (.fatal .addressOutOfRange, bytes ['A']) := by decide

/-- S1's setting with the line abc supplied. -/
def abc : State := { s1 with consoleIn := [bytes ['a', 'b', 'c']] }

/-- V-J-16: a line of exactly x[1] bytes. -/
theorem test_console_in : view [] [40, 41, 42, 43] (run1 0x00200164 ((abc.setReg 0 40).setReg 1 3)) =
    some (.running, [], 1, quiet, [97, 98, 99, 0]) := by decide

/-- V-J-17. -/
theorem test_console_in_stop : view [] [48, 49] (run1 0x00200164 ((abc.setReg 0 48).setReg 1 5)) =
    some (.fatal .addressOutOfRange, [], 1, quiet, [97, 98]) := by decide

/-- V-J-15: nothing is written. -/
theorem test_console_in_overflow : view [] [40] (run1 0x00200164 ((abc.setReg 0 40).setReg 1 2)) =
    some (.fatal .syscallOverflow, [], 1, quiet, [0]) := by decide

/-- V-J-18. -/
theorem test_unknown_syscall : view [] [] (run1 0x00300164 s1) =
    some (.fatal .unknownSyscall, [], 1, quiet, []) := by decide

/-! ### The cycle -/

/-- V-C-1: not retired. -/
theorem test_halt : (landed (run1 0xFFFFFFFF s1)).map (fun t => (t.status, t.reg pcReg, t.retired)) =
    some (.halted, 1, 0) := by decide

/-- V-C-2: the PC stays. -/
theorem test_pc_outside : view [] [] (run1 0x00111060 (s1.setReg pcReg 30)) =
    some (.fatal .pcOutOfCS, [], 30, quiet, []) := by decide

/-- V-C-5: the PSR is unchanged. -/
theorem test_unknown_type : view [] [] (run1 0x00000005 (s1.setPsr (flags false true false false))) =
    some (.fatal .unknownOpCode, [], 1, flags false true false false, []) := by decide

/-- The host's question: the word placed at reset is the one the next step runs (log 14). -/
theorem test_withFetchWord :
    (landed (step (State.reset.withFetchWord 32 0x00111060))).map (fun t => (t.status, t.reg 1, t.retired)) =
      some (.running, 1, 1) := by decide

/-- R28's layout of the PSR: V, C, Z, N from bit 3 to bit 0. -/
theorem test_psr_bits : (flags true false false true).toBits = 0b1001#4 ∧ (flags false true true false).toBits = 0b0110#4 := by
  decide

/-- R219, R222: one record for a retired instruction, an ERROR entry and a closed log at a stop. -/
theorem test_tracer :
    ((landed (run1 0x00111060 s1.attachTracer)).bind State.tracer).map (fun x => (x.log.length, x.isOpen)) =
      some (1, true) ∧
    ((landed (run1 0x00000000 s1.attachTracer)).bind State.tracer) = some ⟨[.error .unknownOpCode], false⟩ := by decide

/-! ### Boot and loader -/

/-- Ranges as init takes them. -/
def req (cs ds ss es : Nat × Nat) : SegRequest :=
  ⟨some ⟨cs.1, cs.2⟩, some ⟨ds.1, ds.2⟩, some ⟨ss.1, ss.2⟩, some ⟨es.1, es.2⟩⟩

/-- V-INIT-1. -/
theorem test_init : view [spReg] [] (initPort (req (0, 24) (31, 47) (25, 30) (48, 48)) State.reset) =
    some (.running, [31], 0, quiet, []) := by decide

/-- V-INIT-6: segments in any order. -/
theorem test_init_any_order : view [spReg] [] (initPort (req (10, 20) (0, 9) (21, 40) (41, 49)) State.reset) =
    some (.running, [41], 10, quiet, []) := by decide

/-- V-INIT-2 to V-INIT-5. -/
theorem test_init_rejects :
    (SegRequest.validate ⟨some ⟨0, 24⟩, some ⟨31, 47⟩, none, some ⟨48, 48⟩⟩ 50) = none ∧
    (req (0, 24) (31, 47) (25, 30) (48, 50)).validate 50 = none ∧
    (req (0, 24) (31, 47) (24, 30) (48, 48)).validate 50 = none ∧
    (req (5, 4) (31, 47) (25, 30) (48, 48)).validate 50 = none := by decide

/-- V-INIT-8: an image of 26 words. -/
theorem test_oversize_image : view [] [0] (loadInstructions (List.replicate 26 7) s1) =
    some (.fatal .segmentMisconfig, [], 0, quiet, [0]) := by decide

/-- Scenario S6's file. -/
def s6File : BinFile :=
  ⟨bytes ['a', '.', 'b', 'i', 'n'],
    some (bytes (['d', 's', '\n', '3', '1', ' ', '4', '7', '\n', 'e', 's', '\n', '4', '8', ' ', '4', '8', '\n'] ++
      ['t', 's', '\n', '0', ' ', '2', '4', '\n', 'd', 'd', '\n', '1', '0', '4', '\n', 't', 'd', '\n', '2', '5', '5']))⟩

theorem test_loader : parseFile s6File = some ⟨some ⟨0, 24⟩, some ⟨31, 47⟩, some ⟨48, 48⟩, [104], [255]⟩ := by decide

/-- S6's boot with MEM_SIZE = 50. -/
theorem test_boot : view [spReg] [0, 31] (bootFile s6File State.reset) =
    some (.running, [50], 0, quiet, [255, 104]) := by decide

/-- S6's boot with MEM_SIZE = 49. -/
theorem test_boot_no_stack : view [] [0] (bootFile s6File { State.reset with cfg := { resetConfig with memSize := 49 } }) =
    some (.fatal .segmentMisconfig, [], 0, quiet, [0]) := by decide

/-- The loader's lines from a text that follows "ts / 0 24 / td". -/
def afterTd (l : List Char) : Option LoaderImage :=
  parseFile ⟨bytes ['a', '.', 'b', 'i', 'n'],
    some (bytes (['t', 's', '\n', '0', ' ', '2', '4', '\n', 't', 'd', '\n'] ++ l))⟩

/-- V-LD-2's value and V-LD-13's leading zeros; V-LD-5, V-LD-6 and V-LD-7 fail, and so
does a CR with no LF after it (R237). -/
theorem test_loader_numbers :
    (afterTd ['4', '2', '9', '4', '9', '6', '7', '2', '9', '5']).map LoaderImage.text = some [0xFFFFFFFF] ∧
    (afterTd ['0', '0', '7', '\r', '\n']).map LoaderImage.text = some [7] ∧
    afterTd ['5', '\r'] = none ∧ afterTd ['5', '\n', '\r'] = none ∧
    afterTd ['0', 'x', '1', '0'] = none ∧ afterTd ['-', '1'] = none ∧
    afterTd ['4', '2', '9', '4', '9', '6', '7', '2', '9', '6'] = none := by decide

/-- V-LD-3, V-LD-4, V-LD-9 and V-LD-14 fail. -/
theorem test_loader_rejects :
    parseFile ⟨bytes ['a', '.', 'b', 'i', 'n'], some (bytes ['1', '0', '4', '\n', 't', 's'])⟩ = none ∧
    parseFile ⟨bytes ['a', '.', 'b', 'i', 'n'], some (bytes ['t', 's', '\n', '2', '4', ' ', '0'])⟩ = none ∧
    parseFile ⟨bytes ['a', '.', 't', 'x', 't'], some (bytes ['t', 's', '\n', '0', ' ', '2', '4'])⟩ = none ∧
    parseFile ⟨bytes ['m', '.', 'b', 'i', 'n'], none⟩ = none := by decide

/-- R221, D28. -/
theorem test_process_exit :
    processExit false .unconfigured = some 1 ∧ processExit true .halted = some 0 ∧
    processExit true (.fatal .loaderParse) = none := by decide

/-! ### Witnesses: the hypotheses of each statement can be met together -/

/-- Another legal pair of tables: JMP and SYSCALL exchanged, Jt = 9. -/
def otherTables : Encoding :=
  { Encoding.standard with
    types := { Encoding.standard.types with jt := 9 }
    codes := { Encoding.standard.codes with jmp := 22, syscall := 0 } }

/-- DecodeOfEncodeIsIdentity. -/
theorem witness_tables : Encoding.standard.wf = true ∧ otherTables.wf = true := by decide

/-- OpcodeMapDecidesEveryWord. -/
theorem witness_not_terminator : 0x00213061#32 ≠ 0xFFFFFFFF#32 := by decide

/-- IgnoredBitsDoNotMatter, a pair of words for each format. -/
theorem witness_ignored_bits :
    ((Fields.ofWord 0x00213061#32).type = Encoding.standard.typeOf .rt ∧
      (Fields.ofWord 0x00213061#32).code = (Fields.ofWord 0xFF213061#32).code ∧
      0x00213061 % 16777216 = 0xFF213061 % 16777216) ∧
    ((Fields.ofWord 0x00012122#32).type = Encoding.standard.typeOf .ut ∧
      (Fields.ofWord 0x00012122#32).code = (Fields.ofWord 0xABC12122#32).code ∧
      0x00012122 % 1048576 = 0xABC12122 % 1048576) ∧
    ((Fields.ofWord 0x00000143#32).type = Encoding.standard.typeOf .st ∧
      (Fields.ofWord 0x00000143#32).code = (Fields.ofWord 0xABC00143#32).code ∧
      0x00000143 % 65536 = 0xABC00143 % 65536) ∧
    ((Fields.ofWord 0x00A00014#32).type = Encoding.standard.typeOf .jt ∧
      (Fields.ofWord 0x00A00014#32).code = (Fields.ofWord 0x00AFF014#32).code ∧
      0x00A00014 / 1048576 = 0x00AFF014 / 1048576) := by decide

/-- S1 with a word at address 0 fetches it. -/
theorem fetches_at0 (w : Nat) (h : (at0 w s1).slot 0 = BitVec.ofNat 32 w) : Fetches (at0 w s1) (BitVec.ofNat 32 w) :=
  ⟨rfl, s1Map, rfl, (by decide : s1Map.cs.start.toNat ≤ (s1.reg pcReg).toNat),
    (by decide : (s1.reg pcReg).toNat ≤ s1Map.cs.last.toNat), (by decide : (s1.reg pcReg).toNat < s1.cfg.memSize), h.symm⟩

/-- StepRunsTheDecodedInstruction: an instruction that goes on, the terminator, and one that stops. -/
theorem witness_step :
    (Fetches (at0 0x00111060 s1) 0x00111060#32 ∧ decode s1.cfg.enc 0x00111060#32 = .ok (.addi 1 1 1) ∧
      ∃ t, exec (.addi 1 1 1) (at0 0x00111060 s1).advancePc = .next t ∧ t.status = .running) ∧
    (Fetches (at0 0xFFFFFFFF s1) 0xFFFFFFFF#32 ∧ decode s1.cfg.enc 0xFFFFFFFF#32 = .ok .halt ∧
      ∃ t, exec .halt (at0 0xFFFFFFFF s1).advancePc = .next t ∧ t.status ≠ .running) ∧
    (Fetches (at0 0x00300164 s1) 0x00300164#32 ∧ decode s1.cfg.enc 0x00300164#32 = .ok (.syscall 3) ∧
      ∃ r, exec (.syscall 3) (at0 0x00300164 s1).advancePc = .fault r) :=
  ⟨⟨fetches_at0 _ (by decide), by rfl, _, rfl, rfl⟩,
    ⟨fetches_at0 _ (by decide), by rfl, _, rfl, by decide⟩,
    ⟨fetches_at0 _ (by decide), by rfl, _, rfl⟩⟩

/-- PcOutsideCodeSegmentIsFatal: one above CS, and one below it. -/
theorem witness_pc_outside :
    ((s1.setReg pcReg 25).status = .running ∧ (s1.setReg pcReg 25).seg = some s1Map ∧
      s1Map.cs.last.toNat < ((s1.setReg pcReg 25).reg pcReg).toNat) ∧
    ∃ s m, State.status s = .running ∧ s.seg = some m ∧ (s.reg pcReg).toNat < m.cs.start.toNat :=
  ⟨by decide, (State.reset.configured { s1Map with cs := ⟨10, 20⟩ }).setReg pcReg 9, { s1Map with cs := ⟨10, 20⟩ },
    by decide, by decide, by decide⟩

/-- TerminatorHaltsTheRun. -/
theorem witness_terminator : Fetches (at0 0xFFFFFFFF s1) 0xFFFFFFFF#32 := fetches_at0 _ (by decide)

/-- IllegalWordIsFatal. -/
theorem witness_illegal :
    Fetches (at0 0x00000121 s1) 0x00000121#32 ∧ decode s1.cfg.enc 0x00000121#32 = .error (.unknownOpCode 1 18) :=
  ⟨fetches_at0 _ (by decide), by rfl⟩

/-- FatalStopIsTerminal and NoBootKindInAStep: a fatal stop with an open tracer, and a state that is not Running. -/
theorem witness_fatal :
    (∃ left, step (at0 0 s1.attachTracer) = .fault (.fatal (.unknownOpCode 0 0) left)) ∧
    (at0 0 s1.attachTracer).tracer = some ⟨[], true⟩ ∧ State.reset.status ≠ .running :=
  ⟨⟨_, rfl⟩, rfl, by decide⟩

/-- S1's setting has the invariant, and keeps it with a word at address 0 and any registers. -/
theorem inv_at0 (w : Nat) (regs : Vector Word 16) (hc : Memory.wf (at0 w s1).mem = true)
    (hr : ∀ e ∈ (at0 w s1).mem, e.1 < 50) : Inv { at0 w s1 with regs := regs } where
  cfg := (by decide : resetConfig.wf = true)
  memCanonical := hc
  memInRange := hr
  segValid := by
    intro m h
    cases h
    exact (by decide : s1Map.wf 50 = true)
  hasSeg := fun _ => rfl
  notBothNZ := (by decide : ¬(s1.psr.n = true ∧ s1.psr.z = true))

/-- OnlyLoadStoreSyscallLeaveMemory: LDR at address 50. -/
theorem witness_leaves_memory :
    ∃ s left, Inv s ∧ step s = .fault (.fatal (.addressOutOfRange 50) left) :=
  ⟨at0 0x00012122 (s1.setReg 1 50), _, inv_at0 0x00012122 _ (by decide) (by decide), rfl⟩

/-- EveryStepKeepsTheInvariant, RetiredCountsEachInstruction, SegmentMapAndParametersAreFixed and PcAdvancesByOne. -/
theorem witness_next :
    ∃ s t, Inv s ∧ step s = .next t ∧ t.status = .running ∧
      decode s.cfg.enc (s.slot (s.reg pcReg).toNat) = .ok (.addi 1 1 1) ∧ ¬writesPc (.addi 1 1 1) :=
  ⟨at0 0x00111060 s1, _, inv_at0 0x00111060 s1.regs (by decide) (by decide), rfl, rfl, by rfl,
    by unfold writesPc; decide⟩

/-- OneRecordPerRetiredInstruction, both clauses. -/
theorem witness_record :
    (∃ t, step (at0 0x00111060 s1.attachTracer) = .next t ∧ t.status = .running) ∧
    (∃ t, step (at0 0xFFFFFFFF s1.attachTracer) = .next t ∧ t.status = .halted) ∧
    (at0 0x00111060 s1.attachTracer).tracer = some ⟨[], true⟩ :=
  ⟨⟨_, rfl, rfl⟩, ⟨_, rfl, rfl⟩, rfl⟩

/-- FlagsAreReplacedOrKept: a jump, and an instruction that is none and does not add. -/
theorem witness_flags :
    (isJumpOrHalt (.jmp 5) ∧ ∃ t, exec (.jmp 5) s1 = .next t) ∧
    (¬isJumpOrHalt (.and 1 2 3) ∧ ¬usesAdd (.and 1 2 3) ∧ ∃ t, exec (.and 1 2 3) s1 = .next t) :=
  ⟨⟨trivial, _, rfl⟩, fun h => h, fun h => h, _, rfl⟩

/-- StoreIsSeenByTheNextFetch: PC and the address are both 3. -/
theorem witness_store_fetch :
    ∃ t, exec (.str 0 1) ((s1.setReg 1 3).setReg pcReg 3) = .next t ∧ t.inCS (t.reg pcReg) = true ∧
      (t.reg pcReg).toNat = (effectiveAddress 1 ((s1.setReg 1 3).setReg pcReg 3)).result.toNat :=
  ⟨_, rfl, by decide, by decide⟩

/-- S1's setting under SHIFT_POLICY = fault. -/
def s1Fault : State := { s1 with cfg := { resetConfig with shiftPolicy := .fault } }

/-- ShiftInstructions and RotateInstructions: by policy at 32, and by amount at 31. -/
theorem witness_may_shift : MayShift s1 32 ∧ MayShift s1Fault 31 :=
  ⟨.inl (by decide), .inr (by decide)⟩

/-- LargeShiftIsStuckUnderFaultPolicy, both clauses at 32. -/
theorem witness_large_shift :
    s1Fault.cfg.shiftPolicy = .fault ∧ 32 ≤ ((s1Fault.setReg 2 32).reg 2).toNat ∧ 32 ≤ (32#12).toNat := by decide

/-- LoadInstruction and StoreInstruction at the last slot, LoadAndStoreOutOfRange one past it. -/
theorem witness_load_store :
    ((s1.setReg 1 49).reg 1).toNat < s1.cfg.memSize ∧
    (effectiveAddress 1 (s1.setReg 1 49)).result.toNat = 49 ∧ 49 < s1.cfg.memSize ∧
    s1.cfg.memSize ≤ ((s1.setReg 1 50).reg 1).toNat := by decide

/-- PushInstruction at both ends of SS. -/
theorem witness_push :
    (pushPointer s1).result.toNat = 30 ∧ InStack s1 s1Map 30 ∧
    (pushPointer (s1.setReg spReg 26)).result.toNat = 25 ∧ InStack (s1.setReg spReg 26) s1Map 25 := by
  unfold InStack
  decide

/-- PushOverflow on a full stack, above the stack and with SP = 0. -/
theorem witness_push_overflow :
    NotInStack (s1.setReg spReg 25) s1Map ((((s1.setReg spReg 25).reg spReg).toNat + 4294967295) % 4294967296) ∧
    NotInStack (s1.setReg spReg 32) s1Map ((((s1.setReg spReg 32).reg spReg).toNat + 4294967295) % 4294967296) ∧
    NotInStack (s1.setReg spReg 0) s1Map ((((s1.setReg spReg 0).reg spReg).toNat + 4294967295) % 4294967296) := by
  unfold NotInStack
  decide

/-- PopInstruction at both ends of SS. -/
theorem witness_pop :
    InStack (s1.setReg spReg 30) s1Map ((s1.setReg spReg 30).reg spReg).toNat ∧
    InStack (s1.setReg spReg 25) s1Map ((s1.setReg spReg 25).reg spReg).toNat := by
  unfold InStack
  decide

/-- PopUnderflowDoesNothing just above and just below SS. -/
theorem witness_pop_underflow :
    NotInStack s1 s1Map (s1.reg spReg).toNat ∧
    NotInStack (s1.setReg spReg 24) s1Map ((s1.setReg spReg 24).reg spReg).toNat := by
  unfold NotInStack
  decide

/-- PushThenPop. -/
theorem witness_push_then_pop : (∃ t, exec (.push 3) s1 = .next t) ∧ (4 : Reg) ≠ spReg := ⟨⟨_, rfl⟩, by decide⟩

/-- ConsoleOutSyscall: nothing to output, output up to the last slot, and one past it. -/
theorem witness_console_out :
    (s1.reg 1).toNat = 0 ∧
    (((s1.setReg 0 48).setReg 1 2).reg 0).toNat + (((s1.setReg 0 48).setReg 1 2).reg 1).toNat ≤ s1.cfg.memSize ∧
    (((s1.setReg 0 49).setReg 1 2).reg 1).toNat ≠ 0 ∧
    s1.cfg.memSize < (((s1.setReg 0 49).setReg 1 2).reg 0).toNat + (((s1.setReg 0 49).setReg 1 2).reg 1).toNat := by
  decide

/-- ConsoleInSyscall: a line that ends at the last slot. -/
theorem witness_console_in :
    ((abc.setReg 0 47).setReg 1 3).readLine.1 = bytes ['a', 'b', 'c'] ∧
    (bytes ['a', 'b', 'c']).length ≤ (((abc.setReg 0 47).setReg 1 3).reg 1).toNat ∧
    (((abc.setReg 0 47).setReg 1 3).reg 0).toNat + (bytes ['a', 'b', 'c']).length ≤ abc.cfg.memSize := by decide

/-- ConsoleInSyscall: an empty line into no buffer. -/
theorem witness_console_in_empty :
    State.readLine { s1 with consoleIn := [[]] } = ([], s1) ∧ ([] : List Byte).length ≤ (s1.reg 1).toNat := by decide

/-- ConsoleInFailures, both clauses. -/
theorem witness_console_in_failures :
    (((abc.setReg 0 40).setReg 1 2).reg 1).toNat < (bytes ['a', 'b', 'c']).length ∧
    (bytes ['a', 'b', 'c']).length ≤ (((abc.setReg 0 48).setReg 1 3).reg 1).toNat ∧
    abc.cfg.memSize < (((abc.setReg 0 48).setReg 1 3).reg 0).toNat + (bytes ['a', 'b', 'c']).length ∧
    ((abc.setReg 0 48).setReg 1 3).readLine.1 = bytes ['a', 'b', 'c'] := by decide

/-- UnknownSyscallIsFatal at its lowest and highest number. -/
theorem witness_unknown_syscall : 3 ≤ (3#12).toNat ∧ 3 ≤ (4095#12).toNat := by decide

/-- A failed check of clear after the end of a run changes nothing (R33), and before it is fatal (R45). -/
theorem test_clear_fails :
    landed (clearRange 50 51 { s1 with status := .halted }) = some { s1 with status := .halted } ∧
    (landed (clearRange 3 50 s1)).map State.status = some (.fatal .addressOutOfRange) := by decide

/-- MemoryAccess and ClearOperations: the last slot, and one past it. -/
theorem witness_memory : 49 < s1.cfg.memSize ∧ s1.cfg.memSize ≤ 50 := by decide

/-- CanonicalMemoriesAreExtensional. -/
theorem witness_canonical : Memory.wf [(3, 7#32), (5, 1#32)] = true ∧ Memory.wf [(3, 0#32)] = false := by decide

/-- InitOnAValidMap: S1's map and one whose SS ends at the last slot. -/
theorem witness_init :
    State.reset.status = .unconfigured ∧ State.reset.cfg.memSize ≤ 4294967296 ∧
    LegalRanges State.reset.cfg.memSize ⟨0, 24⟩ ⟨31, 47⟩ ⟨25, 30⟩ ⟨48, 48⟩ ∧
    LegalRanges State.reset.cfg.memSize ⟨10, 20⟩ ⟨0, 9⟩ ⟨21, 40⟩ ⟨41, 49⟩ := by
  unfold LegalRanges FitsBelow NoOverlap
  decide

/-- InitRejectsABadMap: a range that ends at MEM_SIZE, a shared address, start above end, sizes that sum to 51. -/
theorem witness_init_rejects :
    ¬LegalRanges 50 ⟨0, 24⟩ ⟨31, 47⟩ ⟨25, 30⟩ ⟨48, 50⟩ ∧ ¬LegalRanges 50 ⟨0, 24⟩ ⟨31, 47⟩ ⟨24, 30⟩ ⟨48, 48⟩ ∧
    ¬LegalRanges 50 ⟨5, 4⟩ ⟨31, 47⟩ ⟨25, 30⟩ ⟨48, 48⟩ ∧
    50 < (24 - 0 + 1) + (47 - 31 + 1) + (30 - 25 + 1) + (49 - 47 + 1) := by
  unfold LegalRanges FitsBelow NoOverlap
  decide

/-- DisjointRangesFitInMemory: four ranges that fill the memory. -/
theorem witness_disjoint :
    SegRange.fits ⟨0, 9⟩ 50 = true ∧ SegRange.fits ⟨10, 20⟩ 50 = true ∧ SegRange.fits ⟨21, 40⟩ 50 = true ∧
    SegRange.fits ⟨41, 49⟩ 50 = true ∧ SegRange.apart ⟨0, 9⟩ ⟨10, 20⟩ = true ∧ SegRange.apart ⟨0, 9⟩ ⟨21, 40⟩ = true ∧
    SegRange.apart ⟨0, 9⟩ ⟨41, 49⟩ = true ∧ SegRange.apart ⟨10, 20⟩ ⟨21, 40⟩ = true ∧
    SegRange.apart ⟨10, 20⟩ ⟨41, 49⟩ = true ∧ SegRange.apart ⟨21, 40⟩ ⟨41, 49⟩ = true := by decide

/-- The premise of BootPlacesTheImages with a tracer attached. -/
theorem inv_traced : Inv State.reset.attachTracer where
  cfg := by decide
  memCanonical := by decide
  memInRange := by decide
  segValid := by
    intro m h
    cases h
  hasSeg := by decide
  notBothNZ := by decide

/-- BootPlacesTheImages: a boot that succeeds. -/
theorem witness_boot :
    ∃ s t, Inv s ∧ bootImages (req (0, 24) (31, 47) (25, 30) (48, 48)) [0x00111060] [104] s = .next t :=
  ⟨State.reset.attachTracer, _, inv_traced, rfl⟩

/-- LoadPortPlacesAFittingImage, both clauses with an image that fills its segment. -/
theorem witness_fitting :
    s1.status = .running ∧ s1.retired = 0 ∧ s1.seg = some s1Map ∧
    s1Map.cs.start.toNat + (List.replicate 25 (0#32)).length ≤ s1Map.cs.last.toNat + 1 ∧
    s1Map.cs.last.toNat < s1.cfg.memSize ∧
    s1Map.ds.start.toNat + (List.replicate 17 (0#32)).length ≤ s1Map.ds.last.toNat + 1 ∧
    s1Map.ds.last.toNat < s1.cfg.memSize := by decide

/-- OversizeImageIsRefused, both clauses one word too long. -/
theorem witness_oversize :
    s1.status = .running ∧ s1.retired = 0 ∧ s1.seg = some s1Map ∧
    s1Map.cs.last.toNat - s1Map.cs.start.toNat + 1 < (List.replicate 26 (0#32)).length ∧
    s1Map.ds.last.toNat - s1Map.ds.start.toNat + 1 < (List.replicate 18 (0#32)).length := by decide

/-- DecimalLineIsItsValue: the largest value, the first that is too large, an empty line and a letter. -/
theorem witness_decimal :
    decimalValue (bytes ['4', '2', '9', '4', '9', '6', '7', '2', '9', '5']) < 4294967296 ∧
    4294967296 ≤ decimalValue (bytes ['4', '2', '9', '4', '9', '6', '7', '2', '9', '6']) ∧
    (∀ b ∈ bytes ['4', '2'], isDigit b) ∧ ∃ b ∈ bytes ['4', 'x'], ¬isDigit b := by
  unfold isDigit
  decide

/-- PayloadKeepsOtherSections: a payload in each of the five sections. -/
theorem witness_payload :
    (payload .ds (bytes ['1', ' ', '2']) ⟨none, none, none, [], []⟩).isSome = true ∧
    (payload .es (bytes ['1', ' ', '2']) ⟨none, none, none, [], []⟩).isSome = true ∧
    (payload .ts (bytes ['1', ' ', '2']) ⟨none, none, none, [], []⟩).isSome = true ∧
    (payload .dd (bytes ['7']) ⟨none, none, none, [], []⟩).isSome = true ∧
    (payload .td (bytes ['7']) ⟨none, none, none, [], []⟩).isSome = true := by decide

/-- LoaderSynthesisesTheStack: no range, and S6's ranges. -/
theorem witness_synthesised :
    (LoaderImage.request ⟨none, none, none, [], []⟩ 50).ss = none ∧
    (LoaderImage.request ⟨some ⟨0, 24⟩, some ⟨31, 47⟩, some ⟨48, 48⟩, [], []⟩ 50).ss = some ⟨49, 49⟩ := by decide

end Sys2Proof.Tests
end

section
/-! PROOFS. The state (10_state.md): the inversion of each instruction that is no plain ALU pass or jump, the registers an
instruction may write, what a step does to the control fields, and the obligations O11, O15, O18, O19, O20 and O51. -/
namespace Sys2Proof.Machine

/-! ### What LDR, STR, PUSH, POP and SYSCALL do when they complete -/

theorem execLdr_next {rd rm : Reg} {s t : State} (h : execLdr rd rm s = .next t) :
    (effectiveAddress rm s).result.toNat < s.cfg.memSize ∧
      t = (s.setPsr (effectiveAddress rm s).flags).setReg rd (s.slot (effectiveAddress rm s).result.toNat) := by
  unfold execLdr at h
  dsimp only at h
  split at h
  · rename_i v hr
    obtain ⟨hlt, rfl⟩ := memRead_some hr
    exact ⟨hlt, by simpa using h.symm⟩
  · cases h

theorem execStr_next {rd rm : Reg} {s t : State} (h : execStr rd rm s = .next t) :
    (effectiveAddress rm s).result.toNat < s.cfg.memSize ∧
      t = (s.setPsr (effectiveAddress rm s).flags).setSlot (effectiveAddress rm s).result.toNat (s.reg rd) := by
  unfold execStr at h
  dsimp only at h
  split at h
  · rename_i u hw
    obtain ⟨hlt, rfl⟩ := memWrite_some hw
    exact ⟨hlt, by simpa using h.symm⟩
  · cases h

/-- The fields of the state with the new PSR are rewritten by `rw`: `simp` would leave the kernel to compare the two
states, and with them the flags of SP + 0xFFFFFFFF by evaluation. -/
theorem execPush_next {rd : Reg} {s t : State} (h : execPush rd s = .next t) :
    s.inSS (pushPointer s).result = true ∧ (pushPointer s).result.toNat < s.cfg.memSize ∧
      t = ((s.setPsr (pushPointer s).flags).setSlot (pushPointer s).result.toNat (s.reg rd)).setReg spReg
        (pushPointer s).result := by
  unfold execPush at h
  dsimp only at h
  split at h
  · rename_i hss
    rw [setPsr_inSS] at hss
    split at h
    · rename_i u hw
      obtain ⟨hlt, rfl⟩ := memWrite_some hw
      rw [setPsr_cfg] at hlt
      rw [setPsr_reg] at h
      injection h with ht
      exact ⟨hss, hlt, ht.symm⟩
    · cases h
  · cases h

/-- POP completes with the word at SP, or, on an underflow, with the PSR replaced alone (43_stack.md R161). -/
theorem execPop_next {rd : Reg} {s t : State} (h : execPop rd s = .next t) :
    (s.inSS ((popPointer s).result - 1) = true ∧ (s.reg spReg).toNat < s.cfg.memSize ∧
        t = ((s.setPsr (popPointer s).flags).setReg rd (s.slot (s.reg spReg).toNat)).setReg spReg
          (popPointer s).result) ∨
      (s.inSS ((popPointer s).result - 1) = false ∧ t = s.setPsr (popPointer s).flags) := by
  unfold execPop at h
  dsimp only at h
  split at h
  · rename_i hss
    split at h
    · rename_i v hr
      obtain ⟨hlt, rfl⟩ := memRead_some hr
      exact .inl ⟨hss, hlt, by simpa using h.symm⟩
    · cases h
  · rename_i hss
    exact .inr ⟨by simpa using hss, by simpa using h.symm⟩

theorem emitWords_next {n a : Nat} {s t : State} (h : emitWords n a s = .next t) : ∃ bs, t = s.emit bs := by
  induction n generalizing a s with
  | zero => exact ⟨[], by cases h; simp [State.emit]⟩
  | succ n ih =>
    unfold emitWords at h
    split at h
    · rename_i w _
      obtain ⟨bs, rfl⟩ := ih h
      exact ⟨[w.setWidth 8] ++ bs, by simp [State.emit]⟩
    · cases h

theorem storeBytes_next {l : List Byte} {a : Nat} {s t : State} (h : storeBytes l a s = .next t) :
    t = { s with mem := t.mem } := by
  induction l generalizing a s with
  | nil => cases h; rfl
  | cons b rest ih =>
    unfold storeBytes at h
    split at h
    · rename_i u hw
      obtain ⟨-, rfl⟩ := memWrite_some hw
      have ht := ih h
      exact ht
    · cases h

/-- The handlers write no register and no flag (44_control.md R178). -/
theorem execSyscall_next {imm : Imm} {s t : State} (h : execSyscall imm s = .next t) :
    t.regs = s.regs ∧ t.psr = s.psr := by
  unfold execSyscall at h
  split at h
  · cases h
    exact ⟨rfl, rfl⟩
  · split at h
    · obtain ⟨bs, rfl⟩ := emitWords_next h
      exact ⟨rfl, rfl⟩
    · split at h
      · unfold consoleInCall at h
        dsimp only at h
        split at h
        · cases h
        · rw [storeBytes_next h]
          exact ⟨readLine_regs s, readLine_psr s⟩
      · cases h

/-! ### The registers an instruction may write -/

/-- The registers an instruction may write. POP and the conditional jumps do not always write theirs. -/
def writtenRegs : Instr → List Reg
  | .add rd _ _ | .umul rd _ _ | .udiv rd _ _ | .umol rd _ _ | .and rd _ _ | .orr rd _ _ | .xor rd _ _
  | .shl rd _ _ | .shr rd _ _ | .rtl rd _ _ | .rtr rd _ _ => [rd]
  | .addi rd _ _ | .umuli rd _ _ | .udivi rd _ _ | .umoli rd _ _ | .andi rd _ _ | .orri rd _ _ | .xori rd _ _
  | .shli rd _ _ | .shri rd _ _ | .rtli rd _ _ | .rtri rd _ _ => [rd]
  | .not rd _ | .ldr rd _ => [rd]
  | .push _ => [spReg]
  | .pop rd => [spReg, rd]
  | .jmp _ | .jz _ | .jn _ | .jc _ | .jv _ | .jzn _ => [pcReg]
  | .str _ _ | .syscall _ | .halt => []

theorem writesPc_iff (i : Instr) : writesPc i ↔ pcReg ∈ writtenRegs i := by
  have hsp : pcReg ≠ spReg := by decide
  cases i <;> simp [writesPc, writtenRegs, hsp, eq_comm (a := pcReg)]

theorem sameRegsBut_of_regs_eq (l : List Reg) {s t : State} (h : t.regs = s.regs) : SameRegsBut l s t := by
  intro r _
  simp [State.reg, h]

theorem sameRegsBut_setPsr (l : List Reg) (s : State) (f : Psr) : SameRegsBut l s (s.setPsr f) :=
  sameRegsBut_of_regs_eq l rfl

theorem sameRegsBut_setSlot {l : List Reg} {s t : State} (a : Nat) (v : Word) (h : SameRegsBut l s t) :
    SameRegsBut l s (t.setSlot a v) := h

theorem sameRegsBut_setReg {l : List Reg} {r : Reg} {s t : State} (v : Word) (hr : r ∈ l)
    (h : SameRegsBut l s t) : SameRegsBut l s (t.setReg r v) := by
  intro q hq
  have hne : q ≠ r := fun he => hq (he ▸ hr)
  rw [setReg_reg_ne t v hne, h q hq]

theorem aluWriteback_sameRegsBut {op : AluOp} {x : AluInput} {rd : Reg} {s t : State}
    (h : aluWriteback op x rd s = .next t) : SameRegsBut [rd] s t := by
  rw [aluWriteback_next h]
  exact sameRegsBut_setReg _ (by simp) (sameRegsBut_setPsr _ _ _)

theorem jumpIf_sameRegsBut {taken : Bool} {imm : Imm} {s t : State} (h : jumpIf taken imm s = .next t) :
    SameRegsBut [pcReg] s t := by
  have hs : SameRegsBut [pcReg] s s := sameRegsBut_of_regs_eq _ rfl
  cases taken
  · cases h
    exact hs
  · cases h
    exact sameRegsBut_setReg _ (by simp) hs

theorem execLdr_sameRegsBut {rd rm : Reg} {s t : State} (h : execLdr rd rm s = .next t) : SameRegsBut [rd] s t := by
  obtain ⟨-, rfl⟩ := execLdr_next h
  exact sameRegsBut_setReg _ (by simp) (sameRegsBut_setPsr _ _ _)

theorem execStr_sameRegsBut {rd rm : Reg} {s t : State} (h : execStr rd rm s = .next t) : SameRegsBut [] s t := by
  obtain ⟨-, rfl⟩ := execStr_next h
  exact sameRegsBut_setSlot _ _ (sameRegsBut_setPsr _ _ _)

theorem execPush_sameRegsBut {rd : Reg} {s t : State} (h : execPush rd s = .next t) :
    SameRegsBut [spReg] s t := by
  obtain ⟨-, -, rfl⟩ := execPush_next h
  exact sameRegsBut_setReg _ (by simp) (sameRegsBut_setSlot _ _ (sameRegsBut_setPsr _ _ _))

theorem execPop_sameRegsBut {rd : Reg} {s t : State} (h : execPop rd s = .next t) :
    SameRegsBut [spReg, rd] s t := by
  obtain ⟨-, -, rfl⟩ | ⟨-, rfl⟩ := execPop_next h
  · exact sameRegsBut_setReg _ (by simp) (sameRegsBut_setReg _ (by simp) (sameRegsBut_setPsr _ _ _))
  · exact sameRegsBut_setPsr _ _ _

/-- The register frame of every instruction. -/
theorem exec_sameRegsBut {i : Instr} {s t : State} (h : exec i s = .next t) :
    SameRegsBut (writtenRegs i) s t := by
  cases i
  case ldr => exact execLdr_sameRegsBut h
  case str => exact execStr_sameRegsBut h
  case push => exact execPush_sameRegsBut h
  case pop => exact execPop_sameRegsBut h
  case syscall => exact sameRegsBut_of_regs_eq _ (execSyscall_next h).1
  case halt =>
    cases h
    exact sameRegsBut_of_regs_eq _ rfl
  case jmp | jz | jn | jc | jv | jzn => exact jumpIf_sameRegsBut h
  all_goals
    simp only [exec, execAdd, execAddi, execUmul, execUmuli, execUdiv, execUdivi, execUmol, execUmoli, execAnd,
      execAndi, execOrr, execOrri, execXor, execXori, execShl, execShli, execShr, execShri, execRtl, execRtli,
      execRtr, execRtri, execNot] at h
    exact aluWriteback_sameRegsBut h

theorem exec_keeps_pc {i : Instr} {s t : State} (hi : ¬writesPc i) (h : exec i s = .next t) :
    t.reg pcReg = s.reg pcReg :=
  exec_sameRegsBut h pcReg (fun hm => hi ((writesPc_iff i).2 hm))

/-! ### What a step does -/

theorem instrOf_ne_halt (t : OpType) (c : OpCode) (d : Fields) : instrOf t c d ≠ some .halt := by
  unfold instrOf
  split <;> simp

/-- HALT is the terminator word and no other (30_encoding.md R70). -/
theorem decode_eq_halt_iff {e : Encoding} {w : Word} : decode e w = .ok .halt ↔ w = terminator := by
  constructor
  · intro h
    by_contra hw
    simp only [decode, hw, if_false] at h
    split at h
    · split at h
      · rename_i hi
        cases h
        exact instrOf_ne_halt _ _ _ hi
      · cases h
    · cases h
  · rintro rfl
    exact decode_terminator e

theorem SameControl.of_advancePc {s u : State} (h : SameControl s.advancePc u) : SameControl s u :=
  ⟨h.seg, h.status, h.retired, h.cfg, h.tracer⟩

/-- A step that goes on retired the state its instruction left; a step that halts fetched the terminator. -/
theorem step_next_cases {s t : State} (h : step s = .next t) :
    (∃ i u, s.slot (s.reg pcReg).toNat ≠ terminator ∧ decode s.cfg.enc (s.slot (s.reg pcReg).toNat) = .ok i ∧
        exec i s.advancePc = .next u ∧ SameControl s u ∧ u.status = .running ∧
        t = u.retire (s.slot (s.reg pcReg).toNat)) ∨
      (s.slot (s.reg pcReg).toNat = terminator ∧ t = { s.advancePc with status := .halted }) := by
  obtain ⟨w, i, u, hrun, hw, hd, hu, ht⟩ := step_next h
  obtain ⟨-, -, rfl⟩ := fetchWord_ok hw
  by_cases hi : i = .halt
  · subst hi
    rw [exec_halt] at hu
    cases hu
    exact .inr ⟨decode_eq_halt_iff.1 hd, by simpa using ht⟩
  · have hctl := (exec_control hi hu).of_advancePc
    have hurun : u.status = .running := hctl.status.trans hrun
    refine .inl ⟨i, u, ?_, hd, hu, hctl, hurun, by simpa [hurun] using ht⟩
    intro hterm
    rw [hterm, decode_terminator] at hd
    cases hd
    exact hi rfl

theorem exec_fatal {i : Instr} {s left : State} {c : Cause} (h : exec i s = .fault (.fatal c left)) :
    ∃ u, SameControl s u ∧ left = u.stopped c.kind := by
  have hi : i ≠ .halt := by
    rintro rfl
    cases h
  have hk := exec_keeps (closed_control s) i hi s ⟨rfl, rfl, rfl, rfl, rfl⟩
  rw [h] at hk
  obtain ⟨u, ⟨hseg, hstatus, hretired, hcfg, htracer⟩, hleft⟩ := hk
  exact ⟨u, ⟨hseg, hstatus, hretired, hcfg, htracer⟩, hleft⟩

/-- A fatal stop is `State.stopped` on a state that differs from the one before only in what an instruction may write. -/
theorem step_fatal {s left : State} {c : Cause} (h : step s = .fault (.fatal c left)) :
    ∃ u, SameControl s u ∧ left = u.stopped c.kind := by
  obtain ⟨-, hr⟩ | ⟨-, ⟨_, -, hr⟩ | ⟨_, -, ⟨_, _, -, hr⟩ | ⟨i, -, hexec⟩⟩⟩ := step_fault h
  · cases hr
  · cases hr
    exact ⟨s, ⟨rfl, rfl, rfl, rfl, rfl⟩, rfl⟩
  · cases hr
    exact ⟨s.advancePc, ⟨rfl, rfl, rfl, rfl, rfl⟩, rfl⟩
  · obtain ⟨u, hctl, hleft⟩ := exec_fatal hexec
    exact ⟨u, hctl.of_advancePc, hleft⟩

theorem step_of_not_running {s : State} (h : s.status ≠ .running) : step s = .fault (.notRunning s.status) := by
  simp [step, h]

theorem Tracer.fail_of_open {x : Tracer} (k : FatalKind) (h : x.isOpen = true) :
    x.fail k = ⟨x.log ++ [.error k], false⟩ := by
  simp [Tracer.fail, Tracer.put, h]

/-! ### The state after reset -/

@[simp] theorem reset_reg (r : Reg) : State.reset.reg r = 0 := by simp [State.reg, State.reset]

@[simp] theorem reset_slot (a : Nat) : State.reset.slot a = 0 := rfl

theorem resetConfig_wf : resetConfig.wf = true := by decide

/-! ### The obligations -/

/-- Settles O11: a fatal stop is `State.stopped` on a state with the control fields of the one before. -/
theorem fatalStopIsTerminal : Obligations.FatalStopIsTerminal := by
  refine ⟨fun s h => step_of_not_running h, ?_⟩
  intro s left c h
  obtain ⟨u, ⟨hseg, -, hretired, hcfg, htracer⟩, rfl⟩ := step_fatal h
  refine ⟨rfl, hretired, hseg, hcfg, ?_, step_of_not_running (by simp)⟩
  intro x hx hopen
  simp [htracer, hx, Tracer.fail_of_open _ hopen]

/-- Settles O18, by the two ways a step goes on. -/
theorem retiredCountsEachInstruction : Obligations.RetiredCountsEachInstruction := by
  intro s t h
  obtain ⟨i, u, hw, -, -, hctl, hrun, rfl⟩ | ⟨hw, rfl⟩ := step_next_cases h
  · exact .inl ⟨hrun, congrArg (· + 1) hctl.retired, hw⟩
  · exact .inr ⟨rfl, rfl, hw⟩

/-- Settles O19: no instruction touches the control fields, and retiring and halting leave these two. -/
theorem segmentMapAndParametersAreFixed : Obligations.SegmentMapAndParametersAreFixed := by
  intro s t h
  obtain ⟨i, u, -, -, -, hctl, -, rfl⟩ | ⟨-, rfl⟩ := step_next_cases h
  · exact ⟨hctl.seg, hctl.cfg⟩
  · exact ⟨rfl, rfl⟩

/-- Settles O20: the PC fetch has advanced is kept by an instruction that does not write it. -/
theorem pcAdvancesByOne : Obligations.PcAdvancesByOne := by
  intro s t i hd h hi
  have hpc : t.reg pcReg = s.advancePc.reg pcReg := by
    obtain ⟨j, u, -, hj, hu, -, -, rfl⟩ | ⟨-, rfl⟩ := step_next_cases h
    · cases hd.symm.trans hj
      rw [retire_reg]
      exact exec_keeps_pc hi hu
    · rfl
  rw [hpc, advancePc_reg, if_pos rfl, BitVec.toNat_add]
  rfl

/-- Settles O15: the reset parameters are legal, memory is empty and there is no map yet. -/
theorem resetHasTheInvariant : Obligations.ResetHasTheInvariant where
  cfg := resetConfig_wf
  memCanonical := wf_nil
  memInRange e he := nomatch he
  segValid m hm := nomatch hm
  hasSeg h := by rcases h with h | h <;> cases h
  notBothNZ h := nomatch h.1

/-- Settles O51: every register and every slot reads 0, the rest are fields of the reset state. -/
theorem powerOnDefault : Obligations.PowerOnDefault :=
  ⟨reset_reg, rfl, reset_slot, rfl, rfl, rfl⟩

end Sys2Proof.Machine
end

section
/-! PROOFS. Memory (20_memory.md): what every step keeps, what a store, MemRead, MemWrite and clear do to the slots, and the
obligations O14, O22, O48, O49, O50 and O54. -/
namespace Sys2Proof.Machine

/-! ### The invariant -/

/-- The invariant reads the parameters, memory, the map, the status and the PSR only. -/
theorem Inv.of_eq {s t : State} (h : Inv s) (hcfg : t.cfg = s.cfg) (hmem : t.mem = s.mem) (hseg : t.seg = s.seg)
    (hstatus : t.status = s.status) (hpsr : t.psr = s.psr) : Inv t where
  cfg := hcfg ▸ h.cfg
  memCanonical := hmem ▸ h.memCanonical
  memInRange := by rw [hcfg, hmem]; exact h.memInRange
  segValid := by rw [hcfg, hseg]; exact h.segValid
  hasSeg := by rw [hseg, hstatus]; exact h.hasSeg
  notBothNZ := hpsr ▸ h.notBothNZ

theorem Inv.setPsr {s : State} {f : Psr} (hf : ¬(f.n = true ∧ f.z = true)) (h : Inv s) : Inv (s.setPsr f) :=
  { h with notBothNZ := hf }

theorem Inv.setSlot {s : State} {a : Nat} (v : Word) (ha : a < s.cfg.memSize) (h : Inv s) : Inv (s.setSlot a v) :=
  { h with
    memCanonical := wf_write a v h.memCanonical
    memInRange := by
      intro e he
      rcases mem_write he with rfl | he
      · exact ha
      · exact h.memInRange e he }

/-- Halting needs the map that a running machine has. -/
theorem Inv.halted {s : State} (hrun : s.status = .running) (h : Inv s) : Inv { s with status := .halted } :=
  { h with hasSeg := fun _ => h.hasSeg (.inl hrun) }

theorem closed_inv : Closed Inv where
  setReg _ _ _ h := h.of_eq rfl rfl rfl rfl rfl
  setPsr _ _ hf h := h.setPsr hf
  setSlot _ _ v ha h := h.setSlot v ha
  emit _ _ h := h.of_eq rfl rfl rfl rfl rfl
  readLine s h :=
    h.of_eq (readLine_cfg s) (readLine_mem s) (readLine_seg s) (readLine_status s) (readLine_psr s)

theorem exec_inv {i : Instr} {s t : State} (hrun : s.status = .running) (hinv : Inv s) (h : exec i s = .next t) :
    Inv t := by
  by_cases hi : i = .halt
  · subst hi
    cases h
    exact hinv.halted hrun
  · have hk := exec_keeps closed_inv i hi s hinv
    rw [h] at hk
    exact hk

/-- Settles O14: the elementary updates of an instruction keep the invariant, and it does not read what fetch and
retiring write. -/
theorem everyStepKeepsTheInvariant : Obligations.EveryStepKeepsTheInvariant := by
  intro s t hinv h
  obtain ⟨w, i, u, hrun, -, -, hexec, rfl⟩ := step_next h
  have hu : Inv u := exec_inv (s := s.advancePc) hrun (hinv.of_eq rfl rfl rfl rfl rfl) hexec
  split
  · exact hu.of_eq rfl rfl rfl rfl rfl
  · exact hu

/-! ### A store and the next fetch -/

/-- Settles O22: the fetch reads the slot STR wrote, which lies below MEM_SIZE because STR completed. -/
theorem storeIsSeenByTheNextFetch : Obligations.StoreIsSeenByTheNextFetch := by
  intro s t rd rm h hcs hpc
  obtain ⟨hlt, rfl⟩ := execStr_next h
  rw [fetchWord_of hcs (hpc ▸ hlt), setSlot_slot, if_pos hpc]

/-! ### Canonical memories -/

theorem read_of_mem {m : Memory} (hm : m.Pairwise (fun p q => p.1 < q.1)) {e : Nat × Word} (he : e ∈ m) :
    Memory.read m e.1 = e.2 := by
  induction m with
  | nil => cases he
  | cons x rest ih =>
    obtain ⟨hx, hrest⟩ := List.pairwise_cons.1 hm
    rcases List.mem_cons.1 he with rfl | he
    · exact if_pos rfl
    · exact (if_neg (hx e he).ne).trans (ih hrest he)

theorem mem_of_read_ne_zero {m : Memory} {a : Nat} (h : Memory.read m a ≠ 0) : (a, Memory.read m a) ∈ m := by
  induction m with
  | nil => exact absurd rfl h
  | cons x rest ih =>
    obtain ⟨b, u⟩ := x
    by_cases hb : b = a
    · simp [Memory.read, hb]
    · simp only [Memory.read, if_neg hb] at h ⊢
      exact List.mem_cons_of_mem _ (ih h)

/-- A canonical memory lists exactly the slots that do not read 0, with what they read. -/
theorem mem_iff_read {m : Memory} (hm : Memory.wf m = true) (e : Nat × Word) :
    e ∈ m ↔ e.2 ≠ 0 ∧ Memory.read m e.1 = e.2 := by
  obtain ⟨hsorted, hne⟩ := (wf_iff m).1 hm
  constructor
  · exact fun he => ⟨hne e he, read_of_mem hsorted he⟩
  · rintro ⟨h0, hr⟩
    have hmem := mem_of_read_ne_zero (hr ▸ h0)
    rwa [hr] at hmem

/-- Settles O49: the two lists have the same entries, and a list sorted by address is determined by its entries. -/
theorem canonicalMemoriesAreExtensional : Obligations.CanonicalMemoriesAreExtensional := by
  intro m m' hm hm' hread
  have : Std.Irrefl (fun p q : Nat × Word => p.1 < q.1) := ⟨fun p => lt_irrefl p.1⟩
  refine ((wf_iff m).1 hm).1.eq_of_mem_iff ((wf_iff m').1 hm').1 ?_
  intro e
  rw [mem_iff_read hm, mem_iff_read hm', hread]

/-! ### MemRead, MemWrite and clear -/

/-- What an access that writes memory only leaves unchanged. -/
theorem frame_of_mem (s : State) (m : Memory) :
    SameRegsBut [] s { s with mem := m } ∧ { s with mem := m }.psr = s.psr ∧ SameControl s { s with mem := m } ∧
      SameStreams s { s with mem := m } :=
  ⟨sameRegsBut_of_regs_eq [] rfl, rfl, ⟨rfl, rfl, rfl, rfl, rfl⟩, ⟨rfl, rfl, rfl⟩⟩

theorem memRead_of_le {s : State} {a : Nat} (h : s.cfg.memSize ≤ a) : s.memRead a = none := if_neg (Nat.not_lt.2 h)

theorem memWrite_of_le {s : State} {a : Nat} (v : Word) (h : s.cfg.memSize ≤ a) : s.memWrite a v = none :=
  if_neg (Nat.not_lt.2 h)

theorem sameMemoryBut_setSlot (s : State) (a : Nat) (v : Word) : SameMemoryBut a s (s.setSlot a v) := by
  intro b hb
  rw [setSlot_slot, if_neg hb]

theorem setSlot_memRead_same {s : State} {a : Nat} (v : Word) (h : a < s.cfg.memSize) :
    (s.setSlot a v).memRead a = some v := by
  have hlt : a < (s.setSlot a v).cfg.memSize := h
  rw [memRead_of_lt hlt, setSlot_slot, if_pos rfl]

/-- Settles O48, by the two sides of the bounds check. -/
theorem memoryAccess : Obligations.MemoryAccess := by
  intro s a v
  constructor
  · exact fun h => ⟨memRead_of_le h, memWrite_of_le v h⟩
  · intro h
    exact ⟨memRead_of_lt h, s.setSlot a v, memWrite_of_lt v h, setSlot_memRead_same v h, sameMemoryBut_setSlot s a v,
      frame_of_mem s _⟩

theorem RunStatus.ended_iff (st : RunStatus) : st.ended = true ↔ st = .halted ∨ ∃ k, st = .fatal k := by
  cases st <;> simp [RunStatus.ended]

theorem RunStatus.not_ended_iff (st : RunStatus) : st.ended = false ↔ st = .unconfigured ∨ st = .running := by
  cases st <;> simp [RunStatus.ended]

/-- The state a failed check of clear leaves (log 26). -/
def State.afterFailedClear (s : State) : State := if s.status.ended then s else s.stopped .addressOutOfRange

theorem clearFails_fatal (a : Nat) (s : State) :
    clearFails a s = .fault (.fatal (.addressOutOfRange a) s.afterFailedClear) := clearFails_eq a s

theorem afterFailedClear_frame (s : State) :
    SameMemory s s.afterFailedClear ∧ SameRegsBut [] s s.afterFailedClear ∧ s.afterFailedClear.psr = s.psr := by
  unfold State.afterFailedClear
  split
  · exact ⟨fun _ => rfl, sameRegsBut_of_regs_eq [] rfl, rfl⟩
  · exact ⟨fun _ => rfl, sameRegsBut_of_regs_eq [] rfl, rfl⟩

/-- Settles O50: clear() leaves the empty list; clear(begin, end) filters it in range, and fails out of range. -/
theorem clearOperations : Obligations.ClearOperations := by
  intro s lo hi
  refine ⟨⟨_, rfl, fun _ => rfl, frame_of_mem s []⟩, ?_, ?_⟩
  · intro hlo hhi
    refine ⟨_, clearRange_of_lt hlo hhi, ?_, ?_, frame_of_mem s _⟩
    · intro a h1 h2
      exact (read_clearRange s.mem lo hi a).trans (if_pos ⟨h1, h2⟩)
    · intro a h
      exact (read_clearRange s.mem lo hi a).trans (if_neg (by omega))
  · intro h
    obtain ⟨hslots, hregs, hpsr⟩ := afterFailedClear_frame s
    refine ⟨_, s.afterFailedClear, (clearRange_of_le h).trans (clearFails_fatal _ s), fun hlo => if_pos hlo,
      fun hlo => if_neg (Nat.not_le.2 hlo), hslots, hregs, hpsr, ?_, ?_⟩
    · intro hst
      simp [State.afterFailedClear, (RunStatus.not_ended_iff _).2 hst]
    · intro hst
      exact if_pos ((RunStatus.ended_iff _).2 hst)

/-! ### Disjoint ranges -/

theorem SegRange.fits_iff (g : SegRange) (n : Nat) : g.fits n = true ↔ g.start ≤ g.last ∧ g.last < n := by
  simp [SegRange.fits]

theorem SegRange.apart_iff (g h : SegRange) : g.apart h = true ↔ g.last < h.start ∨ h.last < g.start := by
  simp [SegRange.apart]

/-- The addresses of a range. -/
def SegRange.slots (g : SegRange) : Finset Nat := Finset.Icc g.start g.last

theorem SegRange.card_slots {g : SegRange} {n : Nat} (h : g.fits n = true) : g.slots.card = g.size := by
  obtain ⟨hle, -⟩ := (SegRange.fits_iff g n).1 h
  rw [SegRange.slots, Nat.card_Icc, SegRange.size]
  omega

theorem SegRange.slots_subset {g : SegRange} {n : Nat} (h : g.fits n = true) : g.slots ⊆ Finset.range n := by
  intro a ha
  exact Finset.mem_range.2 ((Finset.mem_Icc.1 ha).2.trans_lt ((SegRange.fits_iff g n).1 h).2)

theorem SegRange.disjoint_slots {g h : SegRange} (hgh : g.apart h = true) : Disjoint g.slots h.slots := by
  rw [Finset.disjoint_left]
  intro a hg hh
  rw [SegRange.slots, Finset.mem_Icc] at hg hh
  rw [SegRange.apart_iff] at hgh
  omega

/-- Settles O54, by counting addresses: the ranges are disjoint sets of addresses below n. -/
theorem disjointRangesFitInMemory : Obligations.DisjointRangesFitInMemory := by
  intro n cs ds ss es hcs hds hss hes hcd hcss hce hdss hde hse
  have hpair := SegRange.disjoint_slots hcd
  have htriple : Disjoint (cs.slots ∪ ds.slots) ss.slots :=
    Finset.disjoint_union_left.2 ⟨SegRange.disjoint_slots hcss, SegRange.disjoint_slots hdss⟩
  have hall : Disjoint (cs.slots ∪ ds.slots ∪ ss.slots) es.slots :=
    Finset.disjoint_union_left.2 ⟨Finset.disjoint_union_left.2
      ⟨SegRange.disjoint_slots hce, SegRange.disjoint_slots hde⟩, SegRange.disjoint_slots hse⟩
  calc cs.size + ds.size + ss.size + es.size
      = (cs.slots ∪ ds.slots ∪ ss.slots ∪ es.slots).card := by
        rw [Finset.card_union_of_disjoint hall, Finset.card_union_of_disjoint htriple,
          Finset.card_union_of_disjoint hpair, SegRange.card_slots hcs, SegRange.card_slots hds,
          SegRange.card_slots hss, SegRange.card_slots hes]
    _ ≤ (Finset.range n).card :=
        Finset.card_le_card (Finset.union_subset (Finset.union_subset (Finset.union_subset
          (SegRange.slots_subset hcs) (SegRange.slots_subset hds)) (SegRange.slots_subset hss))
          (SegRange.slots_subset hes))
    _ = n := Finset.card_range n

end Sys2Proof.Machine
end

section
/-! PROOFS. Encoding (30_encoding.md): the fields of a word and the word of given fields, what the decoder does with a word
by its type and code, and the obligations O1 to O6. -/
namespace Sys2Proof.Machine

/-! ### Words and fields -/

/-- Every bit of a word lies in a field (R71). -/
theorem toWord_ofWord (w : Word) : (Fields.ofWord w).toWord = w := by
  have hw := w.isLt
  apply BitVec.eq_of_toNat_eq
  rw [Fields.toWord_toNat, Fields.imm_toNat, Fields.rm_val, Fields.rd_val, Fields.code_toNat, Fields.type_toNat]
  omega

theorem ofFin_setWidth (r : Reg) : (BitVec.ofFin (w := 4) r).setWidth 32 = BitVec.ofNat 32 r.val :=
  BitVec.eq_of_toNat_eq (by simp)

/-- The imm of an Rt form: Rn with zeros above. -/
theorem toNat_zeros_append (r : Reg) : (0#8 ++ BitVec.ofFin (w := 4) r : BitVec 12).toNat = r.val := by
  rw [toNat_append_eq 0#8 (BitVec.ofFin (w := 4) r)]
  simp

/-- Concatenation as OR, the low part first. -/
theorem setWidth_append_eq_or {m n : Nat} (k : Nat) (x : BitVec m) (y : BitVec n) :
    (x ++ y).setWidth k = y.setWidth k ||| x.setWidth k <<< n := by
  rw [BitVec.setWidth_append_eq_shiftLeft_setWidth_or, BitVec.or_comm]

/-- R71's formula: the fields shifted to their places and joined by OR. -/
theorem toWord_eq_or (d : Fields) : d.toWord =
    d.type.setWidth 32 ||| (d.code.setWidth 32 <<< 4) ||| (BitVec.ofNat 32 d.rd.val <<< 12) |||
      (BitVec.ofNat 32 d.rm.val <<< 16) ||| (d.imm.setWidth 32 <<< 20) := by
  calc d.toWord
      = (d.imm ++ BitVec.ofFin (w := 4) d.rm ++ BitVec.ofFin (w := 4) d.rd ++ d.code ++ d.type).setWidth 32 :=
        (BitVec.setWidth_eq d.toWord).symm
    _ = d.type.setWidth 32 ||| (d.code.setWidth 32 ||| (BitVec.ofNat 32 d.rd.val ||| (BitVec.ofNat 32 d.rm.val |||
          d.imm.setWidth 32 <<< 4) <<< 4) <<< 8) <<< 4 := by
        simp only [setWidth_append_eq_or]
        rw [ofFin_setWidth d.rm, ofFin_setWidth d.rd]
    _ = _ := by
        simp only [BitVec.shiftLeft_or_distrib, ← BitVec.shiftLeft_add, ← BitVec.or_assoc, Nat.reduceAdd]

/-- The low twelve bits of a word are its code and its type. -/
theorem low_bits_eq (w : Word) :
    w.toNat % 4096 = (Fields.ofWord w).code.toNat * 16 + (Fields.ofWord w).type.toNat := by
  rw [Fields.code_toNat, Fields.type_toNat]
  omega

/-! ### The tables' lookups -/

theorem typeOf_of_typeFor {e : Encoding} {v : BitVec 4} {t : OpType} (h : e.typeFor v = some t) : e.typeOf t = v := by
  simpa using List.find?_some h

theorem codeOf_of_codeFor {e : Encoding} {v : BitVec 8} {c : OpCode} (h : e.codeFor v = some c) : e.codeOf c = v := by
  simpa using List.find?_some h

/-- The values of R64 are 0 to 4. -/
theorem standard_typeFor_none : ∀ {v : BitVec 4}, Encoding.standard.typeFor v = none → 5 ≤ v.toNat := by decide

/-- The values of R65 are 0 to 22. -/
theorem standard_codeFor_none : ∀ {v : BitVec 8}, Encoding.standard.codeFor v = none → 23 ≤ v.toNat := by decide

/-! ### The decoder on a word that is not the terminator -/

/-- A type and a code the tables list: the pair decides. -/
theorem decode_of_pair {e : Encoding} {w : Word} {t : OpType} {c : OpCode} (hw : w ≠ terminator)
    (ht : e.typeFor (Fields.ofWord w).type = some t) (hc : e.codeFor (Fields.ofWord w).code = some c) :
    decode e w = (instrOf t c (Fields.ofWord w)).elim
      (.error (.unknownOpCode (Fields.ofWord w).type (Fields.ofWord w).code)) .ok := by
  simp only [decode, if_neg hw, ht, hc]
  cases instrOf t c (Fields.ofWord w) <;> rfl

/-- A type or a code the tables do not list is rejected (R68). -/
theorem decode_of_unlisted {e : Encoding} {w : Word} (hw : w ≠ terminator)
    (h : e.typeFor (Fields.ofWord w).type = none ∨ e.codeFor (Fields.ofWord w).code = none) :
    decode e w = .error (.unknownOpCode (Fields.ofWord w).type (Fields.ofWord w).code) := by
  rcases h with h | h
  · simp only [decode, if_neg hw, h]
  · simp only [decode, if_neg hw, h]
    cases e.typeFor (Fields.ofWord w).type <;> rfl

/-! ### Decoding an encoded instruction -/

/-- The word of fields that are not all ones is no terminator, so it decodes by its type and code. -/
theorem decode_toWord {e : Encoding} (he : e.wf = true) {t : OpType} {c : OpCode} {d : Fields} {i : Instr}
    (ht : d.type = e.typeOf t) (hc : d.code = e.codeOf c) (hne : d ≠ Fields.ofWord terminator)
    (hi : instrOf t c d = some i) : decode e d.toWord = .ok i := by
  have hd := Fields.ofWord_toWord d
  have hw : d.toWord ≠ terminator := fun h => hne (h ▸ hd.symm)
  apply decode_of_fields hw (t := t) (c := c)
  · rw [hd, ht, Encoding.typeFor_typeOf he]
  · rw [hd, hc, Encoding.codeFor_codeOf he]
  · rw [hd, hi]

section
variable {e : Encoding} (he : e.wf = true) {c : OpCode}
include he

/-- Rn is read back from imm, whose upper eight bits are zeros, and not ones as in the terminator. -/
theorem decode_encodeRt {mk : Reg → Reg → Reg → Instr} (h : ∀ d, instrOf .rt c d = some (mk d.rd d.rm d.rn))
    (rd rm rn : Reg) : decode e (encodeRt e c rd rm rn) = .ok (mk rd rm rn) := by
  have himm := toNat_zeros_append rn
  apply decode_toWord he (t := .rt) (c := c) rfl rfl
  · intro heq
    have hones : rn.val = (Fields.ofWord terminator).imm.toNat := himm ▸ congrArg (fun d => d.imm.toNat) heq
    have hlt := rn.isLt
    have hval : (Fields.ofWord terminator).imm.toNat = 4095 := by decide
    omega
  · rw [h]
    congr
    exact Fin.ext (by rw [Fields.rn_val, himm]; exact Nat.mod_eq_of_lt rn.isLt)

/-- It is 0 in every legal table (D1), and the terminator's type is 15. -/
theorem decode_encodeIt {mk : Reg → Reg → Imm → Instr} (h : ∀ d, instrOf .it c d = some (mk d.rd d.rm d.imm))
    (rd rm : Reg) (imm : Imm) : decode e (encodeIt e c rd rm imm) = .ok (mk rd rm imm) := by
  obtain ⟨-, -, hit, -⟩ := (Encoding.wf_iff e).1 he
  refine decode_toWord he rfl rfl (fun heq => ?_) (h _)
  exact (by decide : 0#4 ≠ 15#4) (hit.symm.trans (congrArg Fields.type heq))

theorem decode_encodeUt {mk : Reg → Reg → Instr} (h : ∀ d, instrOf .ut c d = some (mk d.rd d.rm)) (rd rm : Reg) :
    decode e (encodeUt e c rd rm) = .ok (mk rd rm) :=
  decode_toWord he rfl rfl (fun heq => (by decide : 0#12 ≠ 0xFFF#12) (congrArg Fields.imm heq)) (h _)

theorem decode_encodeSt {mk : Reg → Instr} (h : ∀ d, instrOf .st c d = some (mk d.rd)) (rd : Reg) :
    decode e (encodeSt e c rd) = .ok (mk rd) :=
  decode_toWord he rfl rfl (fun heq => (by decide : 0#12 ≠ 0xFFF#12) (congrArg Fields.imm heq)) (h _)

theorem decode_encodeJt {mk : Imm → Instr} (h : ∀ d, instrOf .jt c d = some (mk d.imm)) (imm : Imm) :
    decode e (encodeJt e c imm) = .ok (mk imm) :=
  decode_toWord he rfl rfl (fun heq => (by decide : (0 : Reg) ≠ 15) (congrArg Fields.rd heq)) (h _)

end

/-- Settles O1, form by form: an instruction is what the pair of its type and code reads from the fields its form
writes. -/
theorem decodeOfEncodeIsIdentity : Obligations.DecodeOfEncodeIsIdentity := by
  intro e he i
  cases i
  case halt => exact decode_terminator e
  case not | ldr | str => exact decode_encodeUt he (fun _ => rfl) _ _
  case push | pop => exact decode_encodeSt he (fun _ => rfl) _
  case jmp | jz | jn | jc | jv | jzn | syscall => exact decode_encodeJt he (fun _ => rfl) _
  case add | umul | udiv | umol | and | orr | xor | shl | shr | rtl | rtr =>
    exact decode_encodeRt he (fun _ => rfl) _ _ _
  case addi | umuli | udivi | umoli | andi | orri | xori | shli | shri | rtli | rtri =>
    exact decode_encodeIt he (fun _ => rfl) _ _ _

/-- Settles O2. The imm of an Rt form is Rn with zeros above. -/
theorem wordRebuiltFromFields : Obligations.WordRebuiltFromFields := by
  refine ⟨toWord_eq_or, ?_, toWord_ofWord⟩
  intro e c rd rm rn
  rw [encodeRt, toWord_eq_or, ← BitVec.ofNat_toNat 32 (0#8 ++ _), toNat_zeros_append]

/-! ### The opcode map -/

/-- Settles O4. A listed type and code give one of 5 × 23 pairs, and the two tables agree on each; an unlisted one is
beyond the values the rows use. -/
theorem opcodeMapDecidesEveryWord : Obligations.OpcodeMapDecidesEveryWord := by
  intro w hw
  have hlow := low_bits_eq w
  by_cases hun : Encoding.standard.typeFor (Fields.ofWord w).type = none ∨
      Encoding.standard.codeFor (Fields.ofWord w).code = none
  · rw [decode_of_unlisted hw hun]
    have hbig := hun.imp standard_typeFor_none standard_codeFor_none
    have htype := (Fields.ofWord w).type.isLt
    split
    case h_35 => rfl
    all_goals omega
  · obtain ⟨ht, hc⟩ := not_or.1 hun
    obtain ⟨t, ht⟩ := Option.ne_none_iff_exists'.1 ht
    obtain ⟨c, hc⟩ := Option.ne_none_iff_exists'.1 hc
    rw [← typeOf_of_typeFor ht, ← codeOf_of_codeFor hc] at hlow
    rw [decode_of_pair hw ht hc, hlow]
    generalize Fields.ofWord w = d
    cases t <;> cases c <;> rfl

/-! ### The bits a format ignores -/

section
variable {d d' : Fields}

theorem instrOf_rt_congr (c : OpCode) (hrd : d.rd = d'.rd) (hrm : d.rm = d'.rm) (hrn : d.rn = d'.rn) :
    instrOf .rt c d = instrOf .rt c d' := by
  cases c <;> simp [instrOf, hrd, hrm, hrn]

theorem instrOf_ut_congr (c : OpCode) (hrd : d.rd = d'.rd) (hrm : d.rm = d'.rm) :
    instrOf .ut c d = instrOf .ut c d' := by
  cases c <;> simp [instrOf, hrd, hrm]

theorem instrOf_st_congr (c : OpCode) (hrd : d.rd = d'.rd) : instrOf .st c d = instrOf .st c d' := by
  cases c <;> simp [instrOf, hrd]

theorem instrOf_jt_congr (c : OpCode) (himm : d.imm = d'.imm) : instrOf .jt c d = instrOf .jt c d' := by
  cases c <;> simp [instrOf, himm]

end

/-- Two words of one type and code decode alike when every code reads the same instruction from their fields. -/
theorem decode_congr {e : Encoding} (he : e.wf = true) {w v : Word} {t : OpType} (hw : w ≠ terminator)
    (hv : v ≠ terminator) (htype : (Fields.ofWord w).type = (Fields.ofWord v).type)
    (hcode : (Fields.ofWord w).code = (Fields.ofWord v).code) (ht : (Fields.ofWord w).type = e.typeOf t)
    (h : ∀ c, instrOf t c (Fields.ofWord w) = instrOf t c (Fields.ofWord v)) : decode e w = decode e v := by
  have hwt : e.typeFor (Fields.ofWord w).type = some t := ht ▸ Encoding.typeFor_typeOf he t
  cases hc : e.codeFor (Fields.ofWord w).code with
  | none => rw [decode_of_unlisted hw (.inr hc), decode_of_unlisted hv (.inr (hcode ▸ hc)), htype, hcode]
  | some c => rw [decode_of_pair hw hwt hc, decode_of_pair hv (htype ▸ hwt) (hcode ▸ hc), h c, htype, hcode]

/-- Settles O5: the bits the two words share hold the fields their format reads. -/
theorem ignoredBitsDoNotMatter : Obligations.IgnoredBitsDoNotMatter := by
  intro e he w v hw hv htype hcode
  refine ⟨fun ht hbits => ?_, fun ht hbits => ?_, fun ht hbits => ?_, fun ht hbits => ?_⟩ <;>
    refine decode_congr he hw hv htype hcode ht (fun c => ?_)
  · apply instrOf_rt_congr c
    · exact Fin.ext (by rw [Fields.rd_val, Fields.rd_val]; omega)
    · exact Fin.ext (by rw [Fields.rm_val, Fields.rm_val]; omega)
    · exact Fin.ext (by rw [Fields.rn_val, Fields.rn_val, Fields.imm_toNat, Fields.imm_toNat]; omega)
  · apply instrOf_ut_congr c
    · exact Fin.ext (by rw [Fields.rd_val, Fields.rd_val]; omega)
    · exact Fin.ext (by rw [Fields.rm_val, Fields.rm_val]; omega)
  · apply instrOf_st_congr c
    exact Fin.ext (by rw [Fields.rd_val, Fields.rd_val]; omega)
  · apply instrOf_jt_congr c
    exact BitVec.eq_of_toNat_eq (by rw [Fields.imm_toNat, Fields.imm_toNat, hbits])

/-! ### The fields as bits, and the spec's words -/

/-- Settles O3. Bits 31 to 20 are the top of the word, so imm is the quotient itself. -/
theorem fieldsAreTheNamedBits : Obligations.FieldsAreTheNamedBits := by
  intro w
  have hw := w.isLt
  have himm : (Fields.ofWord w).imm.toNat = w.toNat / 1048576 := by rw [Fields.imm_toNat]; omega
  have hrn := Fields.rn_val (Fields.ofWord w)
  exact ⟨Fields.type_toNat w, Fields.code_toNat w, Fields.rd_val w, Fields.rm_val w, himm ▸ hrn, himm, hrn⟩

/-- Settles O6: the decoder is run on each of the ten words. -/
theorem specWordsDecode : Obligations.SpecWordsDecode := by
  unfold Obligations.SpecWordsDecode
  decide

end Sys2Proof.Machine
end

section
/-! PROOFS. The cycle and the ALU (40_cycle_alu.md): what a step does once the fetched word is known, what each ALU
operation returns, the effect of an ALU pass, and the obligations O7 to O10, O21, O23, O24, O26 to O30 and O42. -/
namespace Sys2Proof.Machine

/-! ### Fetch -/

theorem Segment.contains_iff (g : Segment) (a : Word) :
    g.contains a = true ↔ g.start.toNat ≤ a.toNat ∧ a.toNat ≤ g.last.toNat := by
  simp [Segment.contains, BitVec.le_def]

theorem inCS_iff {s : State} {m : SegMap} (h : s.seg = some m) (a : Word) :
    s.inCS a = true ↔ m.cs.start.toNat ≤ a.toNat ∧ a.toNat ≤ m.cs.last.toNat := by
  simp only [State.inCS, h, Segment.contains_iff]

theorem fetchWord_of_fetches {s : State} {w : Word} (h : Fetches s w) : fetchWord s = .ok w := by
  obtain ⟨-, m, hseg, hlo, hhi, hlt, rfl⟩ := h
  exact fetchWord_of ((inCS_iff hseg _).2 ⟨hlo, hhi⟩) hlt

theorem fetchWord_outside {s : State} (h : s.inCS (s.reg pcReg) = false) :
    fetchWord s = .error (.pcOutOfCS (s.reg pcReg)) := by
  simp [fetchWord, h]

/-! ### The advanced PC -/

theorem sameRegsBut_advancePc (s : State) : SameRegsBut [pcReg] s s.advancePc :=
  sameRegsBut_setReg _ (by simp) (sameRegsBut_of_regs_eq _ rfl)

theorem advancePc_pc_toNat (s : State) :
    (s.advancePc.reg pcReg).toNat = ((s.reg pcReg).toNat + 1) % 4294967296 := by
  rw [advancePc_reg, if_pos rfl, BitVec.toNat_add]
  rfl

/-! ### A step, once the fetched word is known -/

theorem finish_of_running (w : Word) {t : State} (h : t.status = .running) :
    finish w (.next t) = .next (t.retire w) := by
  simp [finish, h]

theorem finish_of_not_running (w : Word) {t : State} (h : t.status ≠ .running) : finish w (.next t) = .next t := by
  simp [finish, h]

theorem step_of_fetch_error {s : State} {c : Cause} (hrun : s.status = .running) (h : fetchWord s = .error c) :
    step s = raise c s := by
  simp [step, hrun, h]

theorem step_of_decoded {s : State} {w : Word} {i : Instr} (hf : Fetches s w) (hd : decode s.cfg.enc w = .ok i) :
    step s = finish w (exec i s.advancePc) := by
  simp [step, hf.1, fetchWord_of_fetches hf, hd]

theorem step_of_rejected {s : State} {w : Word} {ty : BitVec 4} {c : BitVec 8} (hf : Fetches s w)
    (hd : decode s.cfg.enc w = .error (.unknownOpCode ty c)) : step s = raise (.unknownOpCode ty c) s.advancePc := by
  simp [step, hf.1, fetchWord_of_fetches hf, hd]

/-- A rejection names the word's own type and code (30_encoding.md R72). -/
theorem decode_error {e : Encoding} {w : Word} {ty : BitVec 4} {c : BitVec 8}
    (h : decode e w = .error (.unknownOpCode ty c)) : ty = (Fields.ofWord w).type ∧ c = (Fields.ofWord w).code := by
  by_cases hw : w = terminator
  · rw [hw, decode_terminator] at h
    cases h
  · simp only [decode, if_neg hw] at h
    split at h
    · split at h
      · cases h
      · cases h
        exact ⟨rfl, rfl⟩
    · cases h
      exact ⟨rfl, rfl⟩

/-- Settles O7, by what retiring does to each answer of exec. -/
theorem stepRunsTheDecodedInstruction : Obligations.StepRunsTheDecodedInstruction := by
  intro s w i hf hd s1
  have hstep : step s = finish w (exec i s1) := step_of_decoded hf hd
  refine ⟨fun t ht hrun => ?_, fun t ht hrun => ?_, fun r hr => ?_⟩
  · rw [hstep, ht, finish_of_running w hrun]
    rfl
  · rw [hstep, ht, finish_of_not_running w hrun]
  · rw [hstep, hr]
    rfl

/-- Settles O8: the CS check fails, and a fatal stop writes the status and the tracer only. -/
theorem pcOutsideCodeSegmentIsFatal : Obligations.PcOutsideCodeSegmentIsFatal := by
  intro s m hrun hseg hpc
  have hcs : s.inCS (s.reg pcReg) = false := by
    rw [← Bool.not_eq_true, inCS_iff hseg]
    omega
  exact ⟨s.stopped .pcOutOfCS, step_of_fetch_error hrun (fetchWord_outside hcs), rfl, sameRegsBut_of_regs_eq _ rfl,
    rfl, fun _ => rfl, rfl, rfl, rfl, ⟨rfl, rfl, rfl⟩⟩

/-- Settles O9: the terminator decodes to HALT under any tables, and a state that is not running does not retire. -/
theorem terminatorHaltsTheRun : Obligations.TerminatorHaltsTheRun := by
  intro s hf
  refine ⟨{ s.advancePc with status := .halted }, ?_, rfl, advancePc_pc_toNat s, sameRegsBut_advancePc s, rfl,
    fun _ => rfl, rfl, rfl, rfl, rfl, ⟨rfl, rfl, rfl⟩⟩
  rw [step_of_decoded hf (decode_terminator _), exec_halt, finish_of_not_running _ (by simp)]

/-- Settles O10: the state left is the one with the PC advanced, stopped. -/
theorem illegalWordIsFatal : Obligations.IllegalWordIsFatal := by
  intro s w ty c hf hd
  obtain ⟨hty, hc⟩ := decode_error hd
  exact ⟨hty, hc, s.advancePc.stopped .unknownOpCode, step_of_rejected hf hd, rfl, advancePc_pc_toNat s,
    sameRegsBut_advancePc s, rfl, fun _ => rfl, rfl, rfl, rfl, ⟨rfl, rfl, rfl⟩⟩

/-- Settles O42: the terminator writes the status alone. -/
theorem haltInstruction : Obligations.HaltInstruction := fun s =>
  ⟨_, exec_halt s, rfl, sameRegsBut_of_regs_eq _ rfl, rfl, fun _ => rfl, rfl, rfl, rfl, rfl, ⟨rfl, rfl, rfl⟩⟩

/-! ### Which instructions replace the PSR -/

theorem jumpIf_psr {taken : Bool} {imm : Imm} {s t : State} (h : jumpIf taken imm s = .next t) : t.psr = s.psr := by
  cases taken <;> cases h <;> rfl

/-- The J-type instructions and the terminator keep the flags (44_control.md R170). -/
theorem exec_keeps_psr {i : Instr} {s t : State} (hi : isJumpOrHalt i) (h : exec i s = .next t) : t.psr = s.psr := by
  cases i
  case jmp | jz | jn | jc | jv | jzn => exact jumpIf_psr h
  case syscall => exact (execSyscall_next h).2
  case halt =>
    cases h
    rfl
  all_goals exact hi.elim

theorem aluWriteback_clears_cv (op : AluOp) {x : AluInput} {rd : Reg} {s t : State} (hop : op ≠ .add)
    (h : aluWriteback op x rd s = .next t) : t.psr.c = false ∧ t.psr.v = false := by
  rw [aluWriteback_next h]
  exact alu_cv_of_ne_add _ _ _ hop

/-- An ALU pass that does not add clears C and V; the address of LDR and STR is such a pass. -/
theorem exec_clears_cv {i : Instr} {s t : State} (hi : ¬isJumpOrHalt i) (ha : ¬usesAdd i) (h : exec i s = .next t) :
    t.psr.c = false ∧ t.psr.v = false := by
  cases i
  case jmp | jz | jn | jc | jv | jzn | syscall | halt => exact absurd trivial hi
  case add | addi | push | pop => exact absurd trivial ha
  case ldr =>
    obtain ⟨-, rfl⟩ := execLdr_next h
    exact alu_cv_of_ne_add (op := .pass) s.cfg.shiftPolicy _ 0 nofun
  case str =>
    obtain ⟨-, rfl⟩ := execStr_next h
    exact alu_cv_of_ne_add (op := .pass) s.cfg.shiftPolicy _ 0 nofun
  case umul | umuli => exact aluWriteback_clears_cv .umul nofun h
  case udiv | udivi => exact aluWriteback_clears_cv .udiv nofun h
  case umol | umoli => exact aluWriteback_clears_cv .umol nofun h
  case and | andi => exact aluWriteback_clears_cv .and nofun h
  case orr | orri => exact aluWriteback_clears_cv .orr nofun h
  case xor | xori => exact aluWriteback_clears_cv .xor nofun h
  case shl | shli => exact aluWriteback_clears_cv .shl nofun h
  case shr | shri => exact aluWriteback_clears_cv .shr nofun h
  case rtl | rtli => exact aluWriteback_clears_cv .rtl nofun h
  case rtr | rtri => exact aluWriteback_clears_cv .rtr nofun h
  case not => exact aluWriteback_clears_cv .comp nofun h

/-- Settles O21: the two lemmas above, one for each clause. -/
theorem flagsAreReplacedOrKept : Obligations.FlagsAreReplacedOrKept := fun _ _ _ h =>
  ⟨fun hi => exec_keeps_psr hi h, fun hi ha => exec_clears_cv hi ha h⟩

/-! ### The flags as numbers -/

theorem getLsbD_31 (a : Word) : a.getLsbD 31 = decide (2147483648 ≤ a.toNat) := BitVec.getLsbD_last a

theorem nzFlags_nzOf (r : Word) : NzOf r (nzFlags r) := by
  refine ⟨?_, ?_, rfl, rfl⟩
  · rw [nzFlags, getLsbD_31, decide_eq_true_iff]
  · simp [nzFlags, BitVec.toNat_eq]

theorem toInt_eq_ite (a : Word) :
    a.toInt = if 2147483648 ≤ a.toNat then (a.toNat : Int) - 4294967296 else (a.toNat : Int) := by
  rw [BitVec.toInt_eq_toNat_cond]
  split <;> split <;> omega

/-- The document's carry test (R88). -/
theorem addCarry_iff (a b r : Word) : addCarry a b r = true ↔ r.toNat < a.toNat ∧ r.toNat < b.toNat := by
  simp [addCarry, BitVec.lt_def]

theorem toNat_add_word (a b : Word) : (a + b).toNat = (a.toNat + b.toNat) % 4294967296 := BitVec.toNat_add a b

/-- A sum below both operands is one that has wrapped, for each operand is below 2^32. -/
theorem addCarry_sum_iff (a b : Word) : addCarry a b (a + b) = true ↔ 4294967296 ≤ a.toNat + b.toNat := by
  have ha := a.isLt
  have hb := b.isLt
  rw [addCarry_iff, toNat_add_word]
  omega

/-- The document's overflow test (R88). -/
theorem addOverflow_iff (a b r : Word) :
    addOverflow a b r = true ↔ a.getLsbD 31 = b.getLsbD 31 ∧ r.getLsbD 31 ≠ a.getLsbD 31 := by
  simp [addOverflow]

/-- The test is two's-complement overflow. -/
theorem addOverflow_sum_iff (a b : Word) : addOverflow a b (a + b) = true ↔
    a.toInt + b.toInt < -2147483648 ∨ 2147483648 ≤ a.toInt + b.toInt := by
  have ha := a.isLt
  have hb := b.isLt
  rw [addOverflow_iff, toInt_eq_ite a, toInt_eq_ite b]
  simp only [getLsbD_31, toNat_add_word, ne_eq, decide_eq_decide]
  omega

/-! ### What the ALU returns -/

section
variable (p : ShiftPolicy) (a b : Word)

theorem alu_add_outcome : AddOutcome a b (alu p .add a b).result (alu p .add a b).flags := by
  obtain ⟨hn, hz, -, -⟩ := nzFlags_nzOf (a + b)
  exact ⟨toNat_add_word a b, hn, hz, addCarry_sum_iff a b, addOverflow_sum_iff a b⟩

theorem alu_umul_outcome : MulOutcome a b (alu p .umul a b).result (alu p .umul a b).flags :=
  ⟨BitVec.toNat_mul a b, nzFlags_nzOf _⟩

theorem alu_udiv_zero : alu p .udiv a 0 = ⟨0, Psr.none⟩ := by simp [alu]

theorem alu_umol_zero : alu p .umol a 0 = ⟨0, Psr.none⟩ := by simp [alu]

variable {b} in
theorem alu_udiv_of_ne (h : b ≠ 0) : alu p .udiv a b = .nz (a / b) := if_neg h

variable {b} in
theorem alu_umol_of_ne (h : b ≠ 0) : alu p .umol a b = .nz (a % b) := if_neg h

theorem alu_udiv_outcome : DivOutcome a b (alu p .udiv a b).result (alu p .udiv a b).flags := by
  constructor
  · intro hb
    rw [show b = 0 from BitVec.eq_of_toNat_eq hb, alu_udiv_zero]
    exact ⟨rfl, rfl⟩
  · intro hb
    rw [alu_udiv_of_ne p a (fun h => hb (congrArg BitVec.toNat h))]
    exact ⟨BitVec.toNat_udiv, nzFlags_nzOf _⟩

theorem alu_umol_outcome : ModOutcome a b (alu p .umol a b).result (alu p .umol a b).flags := by
  constructor
  · intro hb
    rw [show b = 0 from BitVec.eq_of_toNat_eq hb, alu_umol_zero]
    exact ⟨rfl, rfl⟩
  · intro hb
    rw [alu_umol_of_ne p a (fun h => hb (congrArg BitVec.toNat h))]
    exact ⟨BitVec.toNat_umod, nzFlags_nzOf _⟩

theorem alu_and_outcome :
    BitsOutcome (fun x y => x && y) a b (alu p .and a b).result (alu p .and a b).flags :=
  ⟨fun _ _ => BitVec.getLsbD_and, nzFlags_nzOf _⟩

theorem alu_orr_outcome :
    BitsOutcome (fun x y => x || y) a b (alu p .orr a b).result (alu p .orr a b).flags :=
  ⟨fun _ _ => BitVec.getLsbD_or, nzFlags_nzOf _⟩

theorem alu_xor_outcome :
    BitsOutcome (fun x y => x != y) a b (alu p .xor a b).result (alu p .xor a b).flags :=
  ⟨fun _ _ => BitVec.getLsbD_xor, nzFlags_nzOf _⟩

end

/-- Settles O23: the sum, and the two readings of each of C and V. -/
theorem aluAddFlags : Obligations.AluAddFlags := fun p a b =>
  ⟨alu_add_outcome p a b, addCarry_iff a b (a + b), addOverflow_iff a b (a + b)⟩

/-! ### Shifts -/

theorem shiftPlaces_of_lt (p : ShiftPolicy) {b : Word} (h : b.toNat < 32) : shiftPlaces p b = some b.toNat := if_pos h

theorem shiftPlaces_zeroAndMod {b : Word} (h : 32 ≤ b.toNat) : shiftPlaces .zeroAndMod b = none :=
  if_neg (Nat.not_lt.2 h)

theorem shiftPlaces_maskMod32 {b : Word} (h : 32 ≤ b.toNat) : shiftPlaces .maskMod32 b = some (b.toNat % 32) :=
  if_neg (Nat.not_lt.2 h)

theorem toNat_shiftLeft_word (a : Word) (k : Nat) : (a <<< k).toNat = a.toNat * 2 ^ k % 4294967296 := by
  rw [BitVec.toNat_shiftLeft, Nat.shiftLeft_eq]

theorem toNat_ushiftRight_word (a : Word) (k : Nat) : (a >>> k).toNat = a.toNat / 2 ^ k := by
  rw [BitVec.toNat_ushiftRight, Nat.shiftRight_eq_div_pow]

theorem toNat_shiftLeft_of_places {p : ShiftPolicy} {b : Word} {k : Nat} (a : Word) (h : shiftPlaces p b = some k) :
    (shiftLeft p a b).toNat = a.toNat * 2 ^ k % 4294967296 := by
  simp only [shiftLeft, h, toNat_shiftLeft_word]

theorem toNat_shiftRight_of_places {p : ShiftPolicy} {b : Word} {k : Nat} (a : Word) (h : shiftPlaces p b = some k) :
    (shiftRight p a b).toNat = a.toNat / 2 ^ k := by
  simp only [shiftRight, h, toNat_ushiftRight_word]

theorem alu_shl_outcome (p : ShiftPolicy) (a b : Word) :
    ShlOutcome p a b (alu p .shl a b).result (alu p .shl a b).flags := by
  refine ⟨fun h => toNat_shiftLeft_of_places a (shiftPlaces_of_lt p h), ?_, ?_, nzFlags_nzOf _⟩
  · rintro h rfl
    simp [alu, AluResult.nz, shiftLeft, shiftPlaces_zeroAndMod h]
  · rintro h rfl
    exact toNat_shiftLeft_of_places a (shiftPlaces_maskMod32 h)

theorem alu_shr_outcome (p : ShiftPolicy) (a b : Word) :
    ShrOutcome p a b (alu p .shr a b).result (alu p .shr a b).flags := by
  refine ⟨fun h => toNat_shiftRight_of_places a (shiftPlaces_of_lt p h), ?_, ?_, nzFlags_nzOf _⟩
  · rintro h rfl
    simp [alu, AluResult.nz, shiftRight, shiftPlaces_zeroAndMod h]
  · rintro h rfl
    exact toNat_shiftRight_of_places a (shiftPlaces_maskMod32 h)

/-! ### Rotates -/

/-- The model's rotation by B mod 32 is the library's rotation by B: at 0 places its second shift, by 32, adds no
bit. -/
theorem rotateLeftBy_mod (a : Word) (n : Nat) : rotateLeftBy a (n % 32) = a.rotateLeft n := by
  rw [BitVec.rotateLeft_def]
  by_cases h : n % 32 = 0
  · simp [rotateLeftBy, h, BitVec.ushiftRight_eq_zero]
  · exact if_neg h

theorem rotateRightBy_mod (a : Word) (n : Nat) : rotateRightBy a (n % 32) = a.rotateRight n := by
  rw [BitVec.rotateRight_def]
  by_cases h : n % 32 = 0
  · simp [rotateRightBy, h]
  · exact if_neg h

/-- Bit k of a word rotated left is at (k + n) mod 32. -/
theorem getLsbD_rotateLeft_add (a : Word) (n : Nat) {k : Nat} (hk : k < 32) :
    (a.rotateLeft n).getLsbD ((k + n) % 32) = a.getLsbD k := by
  rw [BitVec.getLsbD_rotateLeft]
  by_cases hwrap : (k + n) % 32 < n % 32
  · rw [decide_eq_true hwrap, cond_true]
    congr 1
    omega
  · rw [decide_eq_false hwrap, cond_false, decide_eq_true (by omega), Bool.true_and]
    congr 1
    omega

/-- Bit k of a word rotated right was at (k + n) mod 32. -/
theorem getLsbD_rotateRight_eq (a : Word) (n : Nat) {k : Nat} (hk : k < 32) :
    (a.rotateRight n).getLsbD k = a.getLsbD ((k + n) % 32) := by
  rw [BitVec.getLsbD_rotateRight]
  by_cases hstay : k < 32 - n % 32
  · rw [decide_eq_true hstay, cond_true]
    congr 1
    omega
  · rw [decide_eq_false hstay, cond_false, decide_eq_true hk, Bool.true_and]
    congr 1
    omega

theorem rotateRight_rotateLeft (a : Word) (n : Nat) : (a.rotateLeft n).rotateRight n = a := by
  apply BitVec.eq_of_getLsbD_eq
  intro k hk
  rw [getLsbD_rotateRight_eq _ n hk, getLsbD_rotateLeft_add a n hk]

theorem alu_rtl (p : ShiftPolicy) (a b : Word) : alu p .rtl a b = .nz (a.rotateLeft b.toNat) :=
  congrArg AluResult.nz (rotateLeftBy_mod a b.toNat)

theorem alu_rtr (p : ShiftPolicy) (a b : Word) : alu p .rtr a b = .nz (a.rotateRight b.toNat) :=
  congrArg AluResult.nz (rotateRightBy_mod a b.toNat)

theorem alu_rtl_outcome (p : ShiftPolicy) (a b : Word) :
    RtlOutcome a b (alu p .rtl a b).result (alu p .rtl a b).flags := by
  rw [alu_rtl]
  exact ⟨fun _ hk => getLsbD_rotateLeft_add a _ hk, nzFlags_nzOf _⟩

theorem alu_rtr_outcome (p : ShiftPolicy) (a b : Word) :
    RtrOutcome a b (alu p .rtr a b).result (alu p .rtr a b).flags := by
  rw [alu_rtr]
  exact ⟨fun _ hk => getLsbD_rotateRight_eq a _ hk, nzFlags_nzOf _⟩

/-- Settles O24: bit k comes back from where it went. -/
theorem rotateRoundTrip : Obligations.RotateRoundTrip := by
  intro p a k
  rw [alu_rtr, alu_rtl]
  exact rotateRight_rotateLeft a k.toNat

/-! ### The effect of an ALU pass -/

/-- An ALU pass that is not stuck writes x[rd] and the PSR, and nothing else. -/
theorem writes_of_aluWriteback {i : Instr} (op : AluOp) {x : AluInput} {rd : Reg} {s : State}
    {R : Word → Psr → Prop}
    (hi : exec i s = aluWriteback op x rd s) (hstuck : aluStuck s.cfg.shiftPolicy op x.b = false)
    (hR : R (alu s.cfg.shiftPolicy op x.a x.b).result (alu s.cfg.shiftPolicy op x.a x.b).flags) : Writes i rd s R := by
  have hnext := aluWriteback_of rd hstuck
  refine ⟨_, hi.trans hnext, ?_, aluWriteback_sameRegsBut hnext, fun _ => rfl, ⟨rfl, rfl, rfl, rfl, rfl⟩,
    ⟨rfl, rfl, rfl⟩⟩
  rw [setReg_reg_same, setReg_psr, setPsr_psr]
  exact hR

/-- An operation that is no shift is never stuck. -/
theorem writes_of_not_moves {i : Instr} (op : AluOp) {x : AluInput} {rd : Reg} {s : State}
    {R : Word → Psr → Prop}
    (hi : exec i s = aluWriteback op x rd s) (hop : op.moves = false)
    (hR : R (alu s.cfg.shiftPolicy op x.a x.b).result (alu s.cfg.shiftPolicy op x.a x.b).flags) : Writes i rd s R :=
  writes_of_aluWriteback op hi (aluStuck_of_not_moves _ _ hop) hR

theorem aluStuck_of_mayShift {s : State} {b : Word} (op : AluOp) (h : MayShift s b) :
    aluStuck s.cfg.shiftPolicy op b = false := by
  rcases h with hpolicy | hlt
  · simp [aluStuck, hpolicy]
  · simp [aluStuck, Nat.not_le.2 hlt]

/-- Settles O26: both forms are the ALU pass UMUL, which is never stuck. -/
theorem multiplyInstructions : Obligations.MultiplyInstructions := fun _ _ _ _ _ =>
  ⟨writes_of_not_moves .umul rfl rfl (alu_umul_outcome _ _ _),
    writes_of_not_moves .umul rfl rfl (alu_umul_outcome _ _ _)⟩

/-- Settles O27: both forms are one ALU pass, whose outcome has the case of divisor 0 in it. -/
theorem divideInstructions : Obligations.DivideInstructions := fun _ _ _ _ _ =>
  ⟨writes_of_not_moves .udiv rfl rfl (alu_udiv_outcome _ _ _),
    writes_of_not_moves .udiv rfl rfl (alu_udiv_outcome _ _ _),
    writes_of_not_moves .umol rfl rfl (alu_umol_outcome _ _ _),
    writes_of_not_moves .umol rfl rfl (alu_umol_outcome _ _ _)⟩

/-- Settles O28: the operation acts on each bit of its two operands alike in both forms. -/
theorem logicInstructions : Obligations.LogicInstructions := fun _ _ _ _ _ =>
  ⟨writes_of_not_moves .and rfl rfl (alu_and_outcome _ _ _),
    writes_of_not_moves .and rfl rfl (alu_and_outcome _ _ _),
    writes_of_not_moves .orr rfl rfl (alu_orr_outcome _ _ _),
    writes_of_not_moves .orr rfl rfl (alu_orr_outcome _ _ _),
    writes_of_not_moves .xor rfl rfl (alu_xor_outcome _ _ _),
    writes_of_not_moves .xor rfl rfl (alu_xor_outcome _ _ _)⟩

/-- Settles O29: where the pass is not stuck, the ALU's result is the policy's. -/
theorem shiftInstructions : Obligations.ShiftInstructions := fun _ _ _ _ _ =>
  ⟨fun h => ⟨writes_of_aluWriteback .shl rfl (aluStuck_of_mayShift _ h) (alu_shl_outcome _ _ _),
      writes_of_aluWriteback .shr rfl (aluStuck_of_mayShift _ h) (alu_shr_outcome _ _ _)⟩,
    fun h => ⟨writes_of_aluWriteback .shl rfl (aluStuck_of_mayShift _ h) (alu_shl_outcome _ _ _),
      writes_of_aluWriteback .shr rfl (aluStuck_of_mayShift _ h) (alu_shr_outcome _ _ _)⟩⟩

/-- Settles O30: where the pass is not stuck, the ALU rotates by the amount modulo 32 under every policy. -/
theorem rotateInstructions : Obligations.RotateInstructions := fun _ _ _ _ _ =>
  ⟨fun h => ⟨writes_of_aluWriteback .rtl rfl (aluStuck_of_mayShift _ h) (alu_rtl_outcome _ _ _),
      writes_of_aluWriteback .rtr rfl (aluStuck_of_mayShift _ h) (alu_rtr_outcome _ _ _)⟩,
    fun h => ⟨writes_of_aluWriteback .rtl rfl (aluStuck_of_mayShift _ h) (alu_rtl_outcome _ _ _),
      writes_of_aluWriteback .rtr rfl (aluStuck_of_mayShift _ h) (alu_rtr_outcome _ _ _)⟩⟩

end Sys2Proof.Machine
end

section
/-! PROOFS. The ALU instructions (41_alu_instructions.md): ADD and ADDI, the obligation O25. -/
namespace Sys2Proof.Machine

/-- Settles O25: both forms are the ALU pass ADD, which is never stuck. -/
theorem addInstructions : Obligations.AddInstructions := fun _ _ _ _ _ =>
  ⟨writes_of_not_moves .add rfl rfl (alu_add_outcome _ _ _),
    writes_of_not_moves .add rfl rfl (alu_add_outcome _ _ _)⟩

end Sys2Proof.Machine
end

section
/-! PROOFS. NOT, LDR and STR (42_unary_memory.md): the inverted word, the two sides of the access check after the PSR is
replaced, and the obligations O32, O33, O34 and O35. -/
namespace Sys2Proof.Machine

/-! ### NOT -/

theorem not_eq_zero_iff (a : Word) : ~~~a = 0 ↔ a = 0xFFFFFFFF#32 := BitVec.not_eq_comm

theorem alu_comp_outcome (p : ShiftPolicy) (a b : Word) :
    (∀ k, k < 32 → (alu p .comp a b).result.getLsbD k = !a.getLsbD k) ∧
      (alu p .comp a b).flags.n = !a.getLsbD 31 ∧ ((alu p .comp a b).flags.z = true ↔ a = 0xFFFFFFFF#32) ∧
      (alu p .comp a b).flags.c = false ∧ (alu p .comp a b).flags.v = false := by
  have hbit : ∀ k, k < 32 → (~~~a).getLsbD k = !a.getLsbD k := fun k hk => by simp [hk]
  exact ⟨hbit, hbit 31 (by decide), decide_eq_true_iff.trans (not_eq_zero_iff a), rfl, rfl⟩

/-- Settles O32: NOT is the ALU pass COMP, which is never stuck. -/
theorem notInstruction : Obligations.NotInstruction := fun _ _ _ =>
  writes_of_not_moves .comp rfl rfl (alu_comp_outcome _ _ _)

/-! ### The effective address and the access -/

theorem effectiveAddress_eq (rm : Reg) (s : State) : effectiveAddress rm s = .nz (s.reg rm) := rfl

section
variable {s : State} {rm : Reg} (rd : Reg)

theorem exec_ldr_of_lt (h : (s.reg rm).toNat < s.cfg.memSize) :
    exec (.ldr rd rm) s =
      .next ((s.setPsr (nzFlags (s.reg rm))).setReg rd (s.slot (s.reg rm).toNat)) := by
  show execLdr rd rm s = _
  simp only [execLdr, effectiveAddress_eq, AluResult.nz, setPsr_memRead, memRead_of_lt h]

theorem exec_ldr_of_le (h : s.cfg.memSize ≤ (s.reg rm).toNat) :
    exec (.ldr rd rm) s = raise (.addressOutOfRange (s.reg rm).toNat) (s.setPsr (nzFlags (s.reg rm))) := by
  show execLdr rd rm s = _
  simp only [execLdr, effectiveAddress_eq, AluResult.nz, setPsr_memRead, memRead_of_le h]

theorem exec_str_of_lt (h : (s.reg rm).toNat < s.cfg.memSize) :
    exec (.str rd rm) s =
      .next ((s.setPsr (nzFlags (s.reg rm))).setSlot (s.reg rm).toNat (s.reg rd)) := by
  have hw := memWrite_of_lt (s := s.setPsr (nzFlags (s.reg rm))) (s.reg rd) h
  show execStr rd rm s = _
  simp only [execStr, effectiveAddress_eq, AluResult.nz, setPsr_reg, hw]

theorem exec_str_of_le (h : s.cfg.memSize ≤ (s.reg rm).toNat) :
    exec (.str rd rm) s = raise (.addressOutOfRange (s.reg rm).toNat) (s.setPsr (nzFlags (s.reg rm))) := by
  have hw := memWrite_of_le (s := s.setPsr (nzFlags (s.reg rm))) (s.reg rd) h
  show execStr rd rm s = _
  simp only [execStr, effectiveAddress_eq, AluResult.nz, setPsr_reg, hw]

end

/-- Settles O33: below MEM_SIZE the access check passes, so LDR writes the PSR and x[Rd] alone. -/
theorem loadInstruction : Obligations.LoadInstruction := by
  intro s rd rm h
  refine ⟨_, exec_ldr_of_lt rd h, ⟨setReg_reg_same _ _ _, nzFlags_nzOf _⟩,
    sameRegsBut_setReg _ (List.mem_singleton_self rd) (sameRegsBut_setPsr _ s _), fun _ => rfl,
    ⟨rfl, rfl, rfl, rfl, rfl⟩, ⟨rfl, rfl, rfl⟩⟩

/-- A stop raised after the PSR alone was replaced leaves everything else as it was (60_exceptions.md R212). -/
theorem stopsWith_of_raise_setPsr {i : Instr} {c : Cause} {s : State} {f : Psr} {R : Psr → Prop}
    (hi : exec i s = raise c (s.setPsr f)) (hR : R f) :
    StopsWith i c s (fun left => R left.psr ∧ SameStreams s left) :=
  ⟨_, hi, ⟨hR, rfl, rfl, rfl⟩, sameRegsBut_of_regs_eq [] rfl, fun _ => rfl, rfl, rfl, rfl, rfl⟩

/-- Settles O34: both instructions raise the stop after the PSR is replaced and before any other write. -/
theorem loadAndStoreOutOfRange : Obligations.LoadAndStoreOutOfRange := fun s rd rm h =>
  ⟨stopsWith_of_raise_setPsr (R := NzOf (s.reg rm)) (exec_ldr_of_le rd h) (nzFlags_nzOf _),
    stopsWith_of_raise_setPsr (R := NzOf (s.reg rm)) (exec_str_of_le rd h) (nzFlags_nzOf _)⟩

/-- Settles O35: PASS hands x[Rm] on as the address, and below MEM_SIZE the one slot is written. -/
theorem storeInstruction : Obligations.StoreInstruction := by
  rintro s rd rm _ rfl
  refine ⟨rfl, fun h => ⟨_, exec_str_of_lt rd h, ?_, sameMemoryBut_setSlot _ _ _,
    sameRegsBut_setSlot _ _ (sameRegsBut_setPsr [] s _), nzFlags_nzOf _, ⟨rfl, rfl, rfl, rfl, rfl⟩, ⟨rfl, rfl, rfl⟩⟩⟩
  rw [setSlot_slot]
  exact if_pos rfl

end Sys2Proof.Machine
end

section
/-! PROOFS. The stack (43_stack.md): the states PUSH and POP leave, the two sides of the SS check, and the obligations
O36, O38, O39 and O40. -/
namespace Sys2Proof.Machine

/-! ### The SS check -/

theorem inSS_iff {s : State} {m : SegMap} (h : s.seg = some m) (a : Word) :
    s.inSS a = true ↔ m.ss.start.toNat ≤ a.toNat ∧ a.toNat ≤ m.ss.last.toNat := by
  simp only [State.inSS, h, Segment.contains_iff]

theorem InStack.inSS {s : State} {m : SegMap} {a : Word} (h : InStack s m a.toNat) : s.inSS a = true := by
  obtain ⟨hseg, hlo, hhi, -⟩ := h
  exact (inSS_iff hseg a).2 ⟨hlo, hhi⟩

theorem InStack.lt_memSize {s : State} {m : SegMap} {a : Nat} (h : InStack s m a) : a < s.cfg.memSize := by
  obtain ⟨-, -, hhi, hlast⟩ := h
  exact hhi.trans_lt hlast

theorem NotInStack.inSS_eq_false {s : State} {m : SegMap} {a : Word} (h : NotInStack s m a.toNat) :
    s.inSS a = false := by
  obtain ⟨hseg, hout⟩ := h
  rw [← Bool.not_eq_true, inSS_iff hseg]
  omega

/-! ### The new SP and the flags of that addition -/

theorem pushPointer_result (s : State) : (pushPointer s).result = s.reg spReg + 0xFFFFFFFF#32 := rfl

theorem popPointer_result (s : State) : (popPointer s).result = s.reg spReg + 1 := rfl

theorem pushPointer_outcome (s : State) :
    AddOutcome (s.reg spReg) 0xFFFFFFFF#32 (pushPointer s).result (pushPointer s).flags :=
  alu_add_outcome s.cfg.shiftPolicy _ _

theorem popPointer_outcome (s : State) : AddOutcome (s.reg spReg) 1 (popPointer s).result (popPointer s).flags :=
  alu_add_outcome s.cfg.shiftPolicy _ _

theorem pushPointer_result_toNat (s : State) :
    (pushPointer s).result.toNat = ((s.reg spReg).toNat + 4294967295) % 4294967296 := by
  rw [pushPointer_result, toNat_add_word]
  rfl

/-- Adding 0xFFFFFFFF and then 1 gives the word back. -/
theorem pushPointer_result_add_one (s : State) : (pushPointer s).result + 1 = s.reg spReg := by
  rw [pushPointer_result, BitVec.add_assoc, show 0xFFFFFFFF#32 + 1 = (0 : Word) from by decide]
  exact BitVec.add_zero _

/-- POP checks new − 1, which is SP itself (D31). -/
theorem popPointer_result_sub_one (s : State) : (popPointer s).result - 1 = s.reg spReg := BitVec.add_sub_cancel _ _

/-- C, Z and V of a decrement: it carries unless it borrows from 0, gives 0 only from 1, and overflows only from −2^31. -/
theorem AddOutcome.flags_of_pred {a r : Word} {f : Psr} (h : AddOutcome a 0xFFFFFFFF#32 r f) :
    (f.c = true ↔ a.toNat ≠ 0) ∧ (f.z = true ↔ a.toNat = 1) ∧ (f.v = true ↔ a.toNat = 2147483648) := by
  obtain ⟨hr, -, hz, hc, hv⟩ := h
  have ha := a.isLt
  have hnat : (0xFFFFFFFF#32).toNat = 4294967295 := rfl
  have hint : (0xFFFFFFFF#32).toInt = -1 := rfl
  rw [hnat] at hr hc
  rw [hint, toInt_eq_ite] at hv
  exact ⟨hc.trans (by omega), hz.trans (by omega), hv.trans (by omega)⟩

/-! ### The states PUSH and POP leave. The pointer p is a variable here: the kernel would evaluate the sum
SP + 0xFFFFFFFF when it compares two such states. -/

/-- The state PUSH leaves when p is the new SP with its flags (R160). -/
def State.pushed (s : State) (rd : Reg) (p : AluResult) : State :=
  ((s.setPsr p.flags).setSlot p.result.toNat (s.reg rd)).setReg spReg p.result

/-- The state POP leaves when p is the new SP with its flags (R161). -/
def State.popped (s : State) (rd : Reg) (p : AluResult) : State :=
  ((s.setPsr p.flags).setReg rd (s.slot (s.reg spReg).toNat)).setReg spReg p.result

section
variable (s : State) (rd : Reg) (p : AluResult)

@[simp] theorem pushed_psr : (s.pushed rd p).psr = p.flags := rfl
@[simp] theorem pushed_cfg : (s.pushed rd p).cfg = s.cfg := rfl
@[simp] theorem pushed_inSS (a : Word) : (s.pushed rd p).inSS a = s.inSS a := rfl
@[simp] theorem pushed_sp : (s.pushed rd p).reg spReg = p.result := setReg_reg_same _ _ _

@[simp] theorem pushed_slot (b : Nat) :
    (s.pushed rd p).slot b = if b = p.result.toNat then s.reg rd else s.slot b := setSlot_slot _ _ _ b

theorem sameControl_pushed : SameControl s (s.pushed rd p) := ⟨rfl, rfl, rfl, rfl, rfl⟩

theorem sameStreams_pushed : SameStreams s (s.pushed rd p) := ⟨rfl, rfl, rfl⟩

@[simp] theorem popped_psr : (s.popped rd p).psr = p.flags := rfl
@[simp] theorem popped_sp : (s.popped rd p).reg spReg = p.result := setReg_reg_same _ _ _

variable {rd} in
/-- A pop into SP loses the word. -/
theorem popped_reg_of_ne_sp (h : rd ≠ spReg) : (s.popped rd p).reg rd = s.slot (s.reg spReg).toNat := by
  rw [State.popped, setReg_reg_ne _ _ h, setReg_reg_same]

theorem sameMemory_popped : SameMemory s (s.popped rd p) := fun _ => rfl

theorem sameControl_popped : SameControl s (s.popped rd p) := ⟨rfl, rfl, rfl, rfl, rfl⟩

theorem sameStreams_popped : SameStreams s (s.popped rd p) := ⟨rfl, rfl, rfl⟩

variable {s} {l : List Reg} {s₀ : State}

theorem sameRegsBut_pushed (hsp : spReg ∈ l) (h : SameRegsBut l s₀ s) : SameRegsBut l s₀ (s.pushed rd p) :=
  sameRegsBut_setReg _ hsp (sameRegsBut_setSlot _ _ h)

theorem sameRegsBut_popped (hrd : rd ∈ l) (hsp : spReg ∈ l) (h : SameRegsBut l s₀ s) :
    SameRegsBut l s₀ (s.popped rd p) :=
  sameRegsBut_setReg _ hsp (sameRegsBut_setReg _ hrd h)

end

/-! ### The instructions on the two sides of the check -/

section
variable {s : State} (rd : Reg)

theorem exec_push_of_inSS (hss : s.inSS (pushPointer s).result = true)
    (hlt : (pushPointer s).result.toNat < s.cfg.memSize) :
    exec (.push rd) s = .next (s.pushed rd (pushPointer s)) := by
  show execPush rd s = _
  unfold execPush
  dsimp only
  rw [setPsr_inSS, if_pos hss, setPsr_reg, memWrite_of_lt _ (by rw [setPsr_cfg]; exact hlt), State.pushed]

theorem exec_pop_of_inSS (hss : s.inSS (s.reg spReg) = true) (hlt : (s.reg spReg).toNat < s.cfg.memSize) :
    exec (.pop rd) s = .next (s.popped rd (popPointer s)) := by
  show execPop rd s = _
  simp only [execPop, popPointer_result_sub_one, setPsr_inSS, setPsr_reg, setPsr_memRead, hss, memRead_of_lt hlt,
    if_true, State.popped]

theorem exec_pop_of_not_inSS (hss : s.inSS (s.reg spReg) = false) :
    exec (.pop rd) s = .next (s.setPsr (popPointer s).flags) := by
  show execPop rd s = _
  simp only [execPop, popPointer_result_sub_one, setPsr_inSS, hss, Bool.false_eq_true, if_false]

variable {rd} {t : State}

/-- A push that completes passed both checks. -/
theorem exec_push_next (h : exec (.push rd) s = .next t) :
    s.inSS (pushPointer s).result = true ∧ (pushPointer s).result.toNat < s.cfg.memSize ∧
      t = s.pushed rd (pushPointer s) := by
  unfold State.pushed
  exact execPush_next h

end

/-! ### The obligations -/

/-- Settles O36: the check passes, and the one slot, SP and the PSR are written. -/
theorem pushInstruction : Obligations.PushInstruction := by
  rintro s rd m _ rfl
  refine ⟨pushPointer_result_toNat s, fun h => ⟨_, exec_push_of_inSS rd h.inSS h.lt_memSize, ?_⟩⟩
  have hout := pushPointer_outcome s
  generalize pushPointer s = p at hout ⊢
  rw [pushed_slot, if_pos rfl, pushed_sp, pushed_psr]
  obtain ⟨hc, hz, hv⟩ := hout.flags_of_pred
  refine ⟨rfl, fun b hb => ?_, rfl, sameRegsBut_pushed rd p (by simp) (sameRegsBut_of_regs_eq _ rfl), hout, hc, hz, hv,
    sameControl_pushed s rd p, sameStreams_pushed s rd p⟩
  rw [pushed_slot, if_neg hb]

/-- Settles O38: the check passes, and SP is written after x[Rd]. -/
theorem popInstruction : Obligations.PopInstruction := by
  intro s rd m h
  refine ⟨_, exec_pop_of_inSS rd h.inSS h.lt_memSize, popped_reg_of_ne_sp s _, ?_,
    sameRegsBut_popped rd _ (by simp) (by simp) (sameRegsBut_of_regs_eq _ rfl), sameMemory_popped s rd _,
    sameControl_popped s rd _, sameStreams_popped s rd _⟩
  rw [popped_sp, popped_psr]
  exact popPointer_outcome s

/-- Settles O39: the check fails, and the PSR is already replaced. -/
theorem popUnderflowDoesNothing : Obligations.PopUnderflowDoesNothing := fun s rd _ h =>
  ⟨_, exec_pop_of_not_inSS rd h.inSS_eq_false, sameRegsBut_setPsr [] s _, fun _ => rfl, popPointer_outcome s,
    ⟨rfl, rfl, rfl, rfl, rfl⟩, ⟨rfl, rfl, rfl⟩⟩

/-- Settles O40: SP stands at the slot the push wrote, and the push has passed the pop's two checks. -/
theorem pushThenPop : Obligations.PushThenPop := by
  intro s t rd rd' h hne
  obtain ⟨hss, hlt, rfl⟩ := exec_push_next h
  have hback := pushPointer_result_add_one s
  generalize pushPointer s = p at hss hlt hback ⊢
  refine ⟨_, exec_pop_of_inSS rd' (by rwa [pushed_sp, pushed_inSS]) (by rwa [pushed_sp, pushed_cfg]), ?_, ?_,
    sameRegsBut_popped rd' _ (by simp) (by simp) (sameRegsBut_pushed rd p (by simp) (sameRegsBut_of_regs_eq _ rfl))⟩
  · rw [popped_reg_of_ne_sp _ _ hne, pushed_sp, pushed_slot, if_pos rfl]
  · rw [popped_sp, popPointer_result, pushed_sp, hback]

end Sys2Proof.Machine
end

section
/-! PROOFS. Jumps and syscalls (44_control.md): one jump on a condition, the two console loops inside memory and past its
end, the line syscall 2 reads, and the obligations O41, O43, O44, O45, O46 and O47. -/
namespace Sys2Proof.Machine

/-! ### Jumps -/

theorem imm_setWidth_toNat (imm : Imm) : (imm.setWidth 32 : Word).toNat = imm.toNat :=
  BitVec.toNat_setWidth_of_le (by decide)

/-- A jump writes the PC alone, and only when its condition holds (44_control.md R170). -/
theorem jumpsTo_of_jumpIf {i : Instr} {taken : Prop} {b : Bool} {imm : Imm} {s : State}
    (hi : exec i s = jumpIf b imm s) (hb : taken ↔ b = true) : JumpsTo i taken imm s := by
  refine ⟨_, hi, ?_, ?_, jumpIf_sameRegsBut rfl, jumpIf_psr rfl, ?_⟩
  · intro ht
    rw [if_pos (hb.1 ht), setReg_reg_same, imm_setWidth_toNat]
  · intro hn
    rw [if_neg (mt hb.2 hn)]
  · cases b <;> exact ⟨fun _ => rfl, ⟨rfl, rfl, rfl, rfl, rfl⟩, ⟨rfl, rfl, rfl⟩⟩

/-- Settles O41: each jump is `jumpIf` on its own condition. -/
theorem jumpInstructions : Obligations.JumpInstructions := fun _ _ =>
  ⟨jumpsTo_of_jumpIf rfl (iff_of_true trivial rfl), jumpsTo_of_jumpIf rfl Iff.rfl, jumpsTo_of_jumpIf rfl Iff.rfl,
    jumpsTo_of_jumpIf rfl Iff.rfl, jumpsTo_of_jumpIf rfl Iff.rfl, jumpsTo_of_jumpIf rfl Bool.or_eq_true_iff.symm⟩

/-! ### Which handler a number selects (44_control.md R177) -/

theorem exec_syscall_welcome (s : State) : exec (.syscall 0) s = .next (s.emit s.cfg.greeting) := rfl

theorem exec_syscall_consoleOut (s : State) :
    exec (.syscall 1) s = emitWords (s.reg 1).toNat (s.reg 0).toNat s := rfl

theorem exec_syscall_consoleIn (s : State) :
    exec (.syscall 2) s =
      if (s.reg 1).toNat < s.readLine.1.length then raise (.syscallOverflow s.readLine.1.length) s.readLine.2
      else storeBytes s.readLine.1 (s.reg 0).toNat s.readLine.2 := by
  rw [← readLine_reg s 0, ← readLine_reg s 1]
  rfl

theorem exec_syscall_unknown (s : State) {n : Imm} (h : 3 ≤ n.toNat) :
    exec (.syscall n) s = raise (.unknownSyscall n) s := by
  have hne : ∀ m : Imm, m.toNat < 3 → n ≠ m := by
    rintro m hm rfl
    omega
  show execSyscall n s = _
  rw [execSyscall, if_neg (hne 0 (by decide)), if_neg (hne 1 (by decide)), if_neg (hne 2 (by decide))]

/-! ### What the handlers leave unchanged -/

theorem sameControl_emit (s : State) (bs : List Byte) : SameControl s (s.emit bs) := ⟨rfl, rfl, rfl, rfl, rfl⟩

theorem sameControl_readLine (s : State) : SameControl s s.readLine.2 :=
  ⟨readLine_seg s, readLine_status s, readLine_retired s, readLine_cfg s, readLine_tracer s⟩

/-- A stop raised with registers, memory and the control fields as before. -/
theorem stopsWith_of_raise {i : Instr} {c : Cause} {s u : State} {R : State → Prop} (hi : exec i s = raise c u)
    (hR : R (u.stopped c.kind)) (hregs : u.regs = s.regs) (hmem : SameMemory s u) (hctl : SameControl s u) :
    StopsWith i c s R :=
  ⟨_, hi, hR, sameRegsBut_of_regs_eq [] hregs, hmem, rfl, hctl.retired, hctl.seg, hctl.cfg⟩

/-- Settles O43: the greeting is emitted and nothing else is done. -/
theorem welcomeSyscall : Obligations.WelcomeSyscall := fun s =>
  ⟨_, exec_syscall_welcome s, rfl, sameRegsBut_of_regs_eq [] rfl, rfl, fun _ => rfl, sameControl_emit s _, rfl, rfl⟩

/-- Settles O47: no handler has the number, and the stop is raised before anything is written. -/
theorem unknownSyscallIsFatal : Obligations.UnknownSyscallIsFatal := fun s _ h =>
  stopsWith_of_raise (exec_syscall_unknown s h) ⟨rfl, rfl, rfl, rfl⟩ rfl (fun _ => rfl) ⟨rfl, rfl, rfl, rfl, rfl⟩

/-! ### The loop of syscall 1 -/

theorem emit_nil (s : State) : s.emit [] = s := by simp [State.emit]

theorem emit_emit (s : State) (bs bs' : List Byte) : (s.emit bs).emit bs' = s.emit (bs ++ bs') := by
  simp [State.emit]

/-- No character, or all of them in range; an empty loop reads no address, so it may start anywhere. -/
theorem emitWords_of_fits {n a : Nat} {s : State} (h : n = 0 ∨ a + n ≤ s.cfg.memSize) :
    emitWords n a s = .next (s.emit ((List.range n).map (fun i => (s.slot (a + i)).setWidth 8))) := by
  rcases h with rfl | h
  · simp [emitWords, emit_nil]
  · exact emitWords_of_le n a s h

/-- A loop that runs past the end of memory stops at the first address that does not exist (44_control.md R180, D30). -/
theorem emitWords_past_end {n a : Nat} {s : State} (hn : n ≠ 0) (h : s.cfg.memSize < a + n) :
    ∃ bs, emitWords n a s = raise (.addressOutOfRange (max a s.cfg.memSize)) (s.emit bs) := by
  induction n generalizing a s with
  | zero => exact absurd rfl hn
  | succ n ih =>
    rcases lt_or_ge a s.cfg.memSize with hlt | hle
    · have hpast : (s.emit [(s.slot a).setWidth 8]).cfg.memSize < a + 1 + n := by rw [emit_cfg]; omega
      obtain ⟨bs, hbs⟩ := ih (by omega) hpast
      refine ⟨[(s.slot a).setWidth 8] ++ bs, ?_⟩
      have hmax : max (a + 1) s.cfg.memSize = max a s.cfg.memSize := by omega
      simp only [emitWords, memRead_of_lt hlt, hbs, emit_cfg, hmax, emit_emit]
    · exact ⟨[], by simp only [emitWords, memRead_of_le hle, max_eq_left hle, emit_nil]⟩

/-- Settles O44, by the two ways the loop can run. -/
theorem consoleOutSyscall : Obligations.ConsoleOutSyscall := by
  intro s
  constructor
  · intro h
    refine ⟨_, (exec_syscall_consoleOut s).trans (emitWords_of_fits h), ?_, sameRegsBut_of_regs_eq [] rfl, rfl,
      fun _ => rfl, sameControl_emit s _, rfl, rfl⟩
    simp only [emit_consoleOut, BitVec.ofNat_toNat]
  · intro hn h
    obtain ⟨bs, hbs⟩ := emitWords_past_end hn h
    exact stopsWith_of_raise ((exec_syscall_consoleOut s).trans hbs) ⟨rfl, rfl, rfl⟩ rfl (fun _ => rfl)
      (sameControl_emit s bs)

/-! ### The line syscall 2 reads -/

theorem readLine_supplied {s : State} {l : List Byte} {rest : List (List Byte)} (h : s.consoleIn = l :: rest) :
    s.readLine = (l, { s with consoleIn := rest }) := by
  unfold State.readLine
  rw [h]

theorem readLine_free {s : State} (h : s.consoleIn = []) :
    s.readLine = (Config.freeLine s.freeLines, { s with freeLines := s.freeLines + 1 }) := by
  unfold State.readLine
  rw [h]

/-- How the input moves on by a line: a supplied one is taken, a free one is counted (log 5). -/
theorem readLine_input (s : State) :
    s.readLine.2.consoleIn = s.consoleIn.tail ∧ (s.consoleIn ≠ [] → s.readLine.2.freeLines = s.freeLines) ∧
      (s.consoleIn = [] → s.readLine.2.freeLines = s.freeLines + 1) := by
  cases h : s.consoleIn with
  | nil =>
    rw [readLine_free h]
    exact ⟨h, fun hne => absurd rfl hne, fun _ => rfl⟩
  | cons l rest =>
    rw [readLine_supplied h]
    exact ⟨rfl, fun _ => rfl, nofun⟩

/-! ### The loop of syscall 2 -/

/-- No byte, or all of them in range: each is in its slot, and nothing else changes. -/
theorem storeBytes_of_fits {l : List Byte} {a : Nat} {s : State} (h : l = [] ∨ a + l.length ≤ s.cfg.memSize) :
    ∃ m, storeBytes l a s = .next { s with mem := m } ∧
      (∀ k c, l[k]? = some c → (Memory.read m (a + k)).toNat = c.toNat) ∧
      ∀ b, b < a ∨ a + l.length ≤ b → Memory.read m b = s.slot b := by
  rcases h with rfl | h
  · exact ⟨s.mem, rfl, nofun, fun _ _ => rfl⟩
  · obtain ⟨t, ht, hframe, hslot⟩ := storeBytes_of_le l a s h
    refine ⟨t.mem, hframe ▸ ht, ?_, ?_⟩
    · intro k c hk
      obtain ⟨hlt, -⟩ := List.getElem?_eq_some_iff.1 hk
      have hin : a ≤ a + k ∧ a + k < a + l.length := by omega
      rw [show Memory.read t.mem (a + k) = _ from hslot (a + k), if_pos hin, Nat.add_sub_cancel_left, hk]
      exact BitVec.toNat_setWidth_of_le (by decide)
    · intro b hb
      exact (hslot b).trans (if_neg (by omega))

theorem storeBytes_append {l₁ l₂ : List Byte} {a : Nat} {s t : State} (h : storeBytes l₁ a s = .next t) :
    storeBytes (l₁ ++ l₂) a s = storeBytes l₂ (a + l₁.length) t := by
  induction l₁ generalizing a s with
  | nil =>
    cases h
    rfl
  | cons b rest ih =>
    simp only [List.cons_append, storeBytes] at h ⊢
    split at h
    · rw [ih h, List.length_cons, Nat.add_comm rest.length, Nat.add_assoc]
    · cases h

theorem storeBytes_raises_of_le {l : List Byte} {a : Nat} {s : State} (hl : l ≠ []) (h : s.cfg.memSize ≤ a) :
    storeBytes l a s = raise (.addressOutOfRange a) s := by
  cases l with
  | nil => exact absurd rfl hl
  | cons b rest => simp only [storeBytes, memWrite_of_le _ h]

/-- A line that runs past the end of memory: the bytes that fit are stored, and the next one stops the run (44_control.md
R181, 60_exceptions.md R212). -/
theorem storeBytes_past_end {l : List Byte} {a : Nat} {s : State} (hl : l ≠ []) (h : s.cfg.memSize < a + l.length) :
    ∃ m, storeBytes l a s = raise (.addressOutOfRange (max a s.cfg.memSize)) { s with mem := m } ∧
      (∀ k c, l[k]? = some c → a + k < s.cfg.memSize → (Memory.read m (a + k)).toNat = c.toNat) ∧
      ∀ b, b < a ∨ s.cfg.memSize ≤ b → Memory.read m b = s.slot b := by
  have hpos := List.length_pos_of_ne_nil hl
  obtain ⟨room, hroom⟩ : ∃ room, room = s.cfg.memSize - a := ⟨_, rfl⟩
  have hlen : (l.take room).length = room := List.length_take_of_le (by omega)
  have hrest : l.drop room ≠ [] := List.drop_eq_nil_iff.not.2 (by omega)
  have hstart : a + room = max a s.cfg.memSize := by omega
  have hfits : l.take room = [] ∨ a + (l.take room).length ≤ s.cfg.memSize := by
    rw [← List.length_eq_zero_iff, hlen]
    omega
  obtain ⟨m, hm, hbytes, hframe⟩ := storeBytes_of_fits hfits
  rw [hlen] at hframe
  refine ⟨m, ?_, ?_, ?_⟩
  · calc storeBytes l a s
        = storeBytes (l.take room ++ l.drop room) a s := by rw [List.take_append_drop]
      _ = storeBytes (l.drop room) (max a s.cfg.memSize) { s with mem := m } := by
        rw [storeBytes_append hm, hlen, hstart]
      _ = _ := storeBytes_raises_of_le hrest (le_max_right _ _)
  · intro k c hk hlt
    exact hbytes k c (by rwa [List.getElem?_take_of_lt (by omega)])
  · intro b hb
    exact hframe b (by omega)

/-! ### Syscall 2 -/

/-- Settles O45: the line is read, passes the check of its length, and is stored. -/
theorem consoleInSyscall : Obligations.ConsoleInSyscall := by
  rintro s _ rfl hlen hfits
  obtain ⟨hin, hsupplied, hfree⟩ := readLine_input s
  obtain ⟨m, hm, hbytes, hframe⟩ := storeBytes_of_fits (s := s.readLine.2) (by rwa [readLine_cfg])
  refine ⟨?_, ?_, _, (exec_syscall_consoleIn s).trans ((if_neg (Nat.not_lt.2 hlen)).trans hm), hbytes, ?_,
    sameRegsBut_of_regs_eq [] (readLine_regs s), readLine_psr s, { sameControl_readLine s with },
    readLine_consoleOut s, hin, hsupplied, hfree⟩
  · intro l rest h
    rw [readLine_supplied h]
  · intro h
    rw [readLine_free h]
  · intro b hb
    exact (hframe b hb).trans (readLine_slot s b)

/-- Settles O46: the check of the length comes before the loop, which stores what fits. -/
theorem consoleInFailures : Obligations.ConsoleInFailures := by
  rintro s _ rfl
  constructor
  · intro hlong
    exact stopsWith_of_raise ((exec_syscall_consoleIn s).trans (if_pos hlong)) ⟨readLine_psr s, readLine_consoleOut s⟩
      (readLine_regs s) (readLine_slot s) (sameControl_readLine s)
  · intro hlen hne h
    have hsize : s.readLine.2.cfg.memSize = s.cfg.memSize := congrArg Config.memSize (readLine_cfg s)
    obtain ⟨m, hm, hbytes, hframe⟩ := storeBytes_past_end (s := s.readLine.2) hne (by rwa [hsize])
    rw [hsize] at hm hbytes hframe
    refine ⟨_, (exec_syscall_consoleIn s).trans ((if_neg (Nat.not_lt.2 hlen)).trans hm), hbytes, ?_,
      sameRegsBut_of_regs_eq [] (readLine_regs s), readLine_psr s, rfl, readLine_retired s, readLine_seg s,
      readLine_cfg s, readLine_consoleOut s⟩
    intro b hb
    exact (hframe b hb).trans (readLine_slot s b)

end Sys2Proof.Machine
end

section
/-! PROOFS. Exceptions (60_exceptions.md): the stops of PUSH and POP, that no operation reads the tracer, the fatal causes
each instruction can raise, that the segments lie in memory, the record of a retired instruction, and the obligations
O12, O13, O16, O17 and O37. -/
namespace Sys2Proof.Machine

/-! ### PUSH and POP where they do not complete -/

section
variable {s : State} (rd : Reg)

theorem exec_push_of_not_inSS (hss : s.inSS (pushPointer s).result = false) :
    exec (.push rd) s = raise (.stackOverflow (pushPointer s).result) (s.setPsr (pushPointer s).flags) := by
  show execPush rd s = _
  unfold execPush
  dsimp only
  rw [setPsr_inSS, if_neg (by rw [hss]; exact Bool.false_ne_true)]

/-- The access check fails only when SS reaches past memory, which no valid map allows (log 12). -/
theorem exec_push_of_le (hss : s.inSS (pushPointer s).result = true)
    (hle : s.cfg.memSize ≤ (pushPointer s).result.toNat) :
    exec (.push rd) s =
      raise (.addressOutOfRange (pushPointer s).result.toNat) (s.setPsr (pushPointer s).flags) := by
  show execPush rd s = _
  unfold execPush
  dsimp only
  rw [setPsr_inSS, if_pos hss, memWrite_of_le _ (by rw [setPsr_cfg]; exact hle)]

/-- As for PUSH, the access check fails only when SS reaches past memory (log 12). -/
theorem exec_pop_of_le (hss : s.inSS (s.reg spReg) = true) (hle : s.cfg.memSize ≤ (s.reg spReg).toNat) :
    exec (.pop rd) s = raise (.addressOutOfRange (s.reg spReg).toNat) (s.setPsr (popPointer s).flags) := by
  show execPop rd s = _
  simp only [execPop, popPointer_result_sub_one, setPsr_inSS, setPsr_reg, setPsr_memRead, hss, memRead_of_le hle,
    if_true]

end

theorem pushPointer_result_eq_sub_one (s : State) : (pushPointer s).result = s.reg spReg - 1 :=
  BitVec.eq_sub_iff_add_eq.2 (pushPointer_result_add_one s)

/-- Settles O37: the SS check fails after the PSR is replaced and before any other write. -/
theorem pushOverflow : Obligations.PushOverflow := by
  intro s rd m h
  rw [← pushPointer_result_toNat] at h
  rw [← pushPointer_result_eq_sub_one]
  exact stopsWith_of_raise_setPsr (R := AddOutcome (s.reg spReg) 0xFFFFFFFF#32 (pushPointer s).result)
    (exec_push_of_not_inSS rd h.inSS_eq_false) (pushPointer_outcome s)

/-! ### Fetch and the maps it needs -/

theorem inCS_seg {s : State} {a : Word} (h : s.inCS a = true) : ∃ m, s.seg = some m := by
  unfold State.inCS at h
  split at h
  · exact ⟨_, ‹_›⟩
  · cases h

theorem inSS_seg {s : State} {a : Word} (h : s.inSS a = true) : ∃ m, s.seg = some m := by
  unfold State.inSS at h
  split at h
  · exact ⟨_, ‹_›⟩
  · cases h

theorem fetches_of_fetchWord {s : State} {w : Word} (hrun : s.status = .running) (h : fetchWord s = .ok w) :
    Fetches s w := by
  obtain ⟨hcs, hlt, hw⟩ := fetchWord_ok h
  obtain ⟨m, hseg⟩ := inCS_seg hcs
  obtain ⟨hlo, hhi⟩ := (inCS_iff hseg _).1 hcs
  exact ⟨hrun, m, hseg, hlo, hhi, hlt, hw⟩

/-! ### The instructions that are one ALU pass -/

/-- Steps 6 and 7 with the default writeback are the whole instruction (40_cycle_alu.md R85, R103). -/
def isAluPass : Instr → Prop
  | .ldr _ _ | .str _ _ | .push _ | .pop _ => False
  | .jmp _ | .jz _ | .jn _ | .jc _ | .jv _ | .jzn _ | .syscall _ | .halt => False
  | _ => True

/-- The operands are read from registers and the instruction, so not from the tracer. -/
theorem exec_of_isAluPass {i : Instr} (hi : isAluPass i) :
    ∃ (op : AluOp) (input : State → AluInput) (rd : Reg),
      (∀ s, exec i s = aluWriteback op (input s) rd s) ∧ ∀ s : State, input s.untraced = input s := by
  cases i
  case ldr | str | push | pop | jmp | jz | jn | jc | jv | jzn | syscall | halt => exact hi.elim
  case add | addi => exact ⟨.add, _, _, fun _ => rfl, fun _ => rfl⟩
  case umul | umuli => exact ⟨.umul, _, _, fun _ => rfl, fun _ => rfl⟩
  case udiv | udivi => exact ⟨.udiv, _, _, fun _ => rfl, fun _ => rfl⟩
  case umol | umoli => exact ⟨.umol, _, _, fun _ => rfl, fun _ => rfl⟩
  case and | andi => exact ⟨.and, _, _, fun _ => rfl, fun _ => rfl⟩
  case orr | orri => exact ⟨.orr, _, _, fun _ => rfl, fun _ => rfl⟩
  case xor | xori => exact ⟨.xor, _, _, fun _ => rfl, fun _ => rfl⟩
  case shl | shli => exact ⟨.shl, _, _, fun _ => rfl, fun _ => rfl⟩
  case shr | shri => exact ⟨.shr, _, _, fun _ => rfl, fun _ => rfl⟩
  case rtl | rtli => exact ⟨.rtl, _, _, fun _ => rfl, fun _ => rfl⟩
  case rtr | rtri => exact ⟨.rtr, _, _, fun _ => rfl, fun _ => rfl⟩
  case not => exact ⟨.comp, _, _, fun _ => rfl, fun _ => rfl⟩

/-! ### The tracer is not read: every operation commutes with `State.untraced` -/

theorem raise_untraced (c : Cause) (s : State) : raise c s.untraced = Answer.untraced (raise c s) := rfl

theorem memWrite_untraced (s : State) (a : Nat) (v : Word) :
    s.untraced.memWrite a v = (s.memWrite a v).map State.untraced := by
  rcases lt_or_ge a s.cfg.memSize with hlt | hle
  · rw [memWrite_of_lt v hlt, memWrite_of_lt (s := s.untraced) v hlt]
    rfl
  · rw [memWrite_of_le v hle, memWrite_of_le (s := s.untraced) v hle]
    rfl

theorem readLine_untraced (s : State) : s.untraced.readLine = (s.readLine.1, s.readLine.2.untraced) := by
  cases h : s.consoleIn with
  | nil =>
    rw [readLine_free h, readLine_free (s := s.untraced) h]
    rfl
  | cons l rest =>
    rw [readLine_supplied h, readLine_supplied (s := s.untraced) h]
    rfl

theorem aluWriteback_untraced (op : AluOp) (x : AluInput) (rd : Reg) (s : State) :
    aluWriteback op x rd s.untraced = Answer.untraced (aluWriteback op x rd s) := by
  cases h : aluStuck s.cfg.shiftPolicy op x.b with
  | true => simp only [aluWriteback, untraced_cfg, h, if_true, Answer.untraced, Fault.untraced]
  | false =>
    rw [aluWriteback_of rd h, aluWriteback_of (s := s.untraced) rd h]
    rfl

theorem exec_aluPass_untraced {i : Instr} (hi : isAluPass i) (s : State) :
    exec i s.untraced = Answer.untraced (exec i s) := by
  obtain ⟨op, input, rd, hexec, hinput⟩ := exec_of_isAluPass hi
  rw [hexec, hexec, hinput]
  exact aluWriteback_untraced op (input s) rd s

theorem jumpIf_untraced (taken : Bool) (imm : Imm) (s : State) :
    jumpIf taken imm s.untraced = Answer.untraced (jumpIf taken imm s) := by
  cases taken <;> rfl

theorem emitWords_untraced (n a : Nat) (s : State) :
    emitWords n a s.untraced = Answer.untraced (emitWords n a s) := by
  induction n generalizing a s with
  | zero => rfl
  | succ n ih =>
    simp only [emitWords, untraced_memRead]
    cases s.memRead a with
    | some w => exact ih (a + 1) (s.emit [w.setWidth 8])
    | none => exact raise_untraced _ s

theorem storeBytes_untraced (l : List Byte) (a : Nat) (s : State) :
    storeBytes l a s.untraced = Answer.untraced (storeBytes l a s) := by
  induction l generalizing a s with
  | nil => rfl
  | cons b rest ih =>
    simp only [storeBytes, memWrite_untraced]
    cases s.memWrite a (b.setWidth 32) with
    | some u => exact ih (a + 1) u
    | none => exact raise_untraced _ s

theorem exec_ldr_untraced (rd rm : Reg) (s : State) :
    exec (.ldr rd rm) s.untraced = Answer.untraced (exec (.ldr rd rm) s) := by
  rcases lt_or_ge (s.reg rm).toNat s.cfg.memSize with hlt | hle
  · rw [exec_ldr_of_lt rd hlt, exec_ldr_of_lt (s := s.untraced) rd hlt]
    rfl
  · rw [exec_ldr_of_le rd hle, exec_ldr_of_le (s := s.untraced) rd hle]
    rfl

theorem exec_str_untraced (rd rm : Reg) (s : State) :
    exec (.str rd rm) s.untraced = Answer.untraced (exec (.str rd rm) s) := by
  rcases lt_or_ge (s.reg rm).toNat s.cfg.memSize with hlt | hle
  · rw [exec_str_of_lt rd hlt, exec_str_of_lt (s := s.untraced) rd hlt]
    rfl
  · rw [exec_str_of_le rd hle, exec_str_of_le (s := s.untraced) rd hle]
    rfl

theorem pushPointer_untraced (s : State) : pushPointer s.untraced = pushPointer s := rfl

theorem exec_push_untraced (rd : Reg) (s : State) :
    exec (.push rd) s.untraced = Answer.untraced (exec (.push rd) s) := by
  cases hss : s.inSS (pushPointer s).result with
  | false =>
    rw [exec_push_of_not_inSS rd hss, exec_push_of_not_inSS (s := s.untraced) rd hss, pushPointer_untraced]
    rfl
  | true =>
    rcases lt_or_ge (pushPointer s).result.toNat s.cfg.memSize with hlt | hle
    · rw [exec_push_of_inSS rd hss hlt, exec_push_of_inSS (s := s.untraced) rd hss hlt, pushPointer_untraced]
      rfl
    · rw [exec_push_of_le rd hss hle, exec_push_of_le (s := s.untraced) rd hss hle, pushPointer_untraced]
      rfl

theorem exec_pop_untraced (rd : Reg) (s : State) :
    exec (.pop rd) s.untraced = Answer.untraced (exec (.pop rd) s) := by
  cases hss : s.inSS (s.reg spReg) with
  | false =>
    rw [exec_pop_of_not_inSS rd hss, exec_pop_of_not_inSS (s := s.untraced) rd hss]
    rfl
  | true =>
    rcases lt_or_ge (s.reg spReg).toNat s.cfg.memSize with hlt | hle
    · rw [exec_pop_of_inSS rd hss hlt, exec_pop_of_inSS (s := s.untraced) rd hss hlt]
      rfl
    · rw [exec_pop_of_le rd hss hle, exec_pop_of_le (s := s.untraced) rd hss hle]
      rfl

theorem consoleInCall_untraced (s : State) : consoleInCall s.untraced = Answer.untraced (consoleInCall s) := by
  simp only [consoleInCall, readLine_untraced, untraced_reg]
  split
  · exact raise_untraced _ _
  · exact storeBytes_untraced _ _ _

theorem exec_syscall_untraced (imm : Imm) (s : State) :
    exec (.syscall imm) s.untraced = Answer.untraced (exec (.syscall imm) s) := by
  show execSyscall imm s.untraced = Answer.untraced (execSyscall imm s)
  unfold execSyscall
  split
  · rfl
  · split
    · exact emitWords_untraced _ _ s
    · split
      · exact consoleInCall_untraced s
      · exact raise_untraced _ s

/-- No instruction reads the tracer. -/
theorem exec_untraced (i : Instr) (s : State) : exec i s.untraced = Answer.untraced (exec i s) := by
  cases i
  case ldr => exact exec_ldr_untraced _ _ s
  case str => exact exec_str_untraced _ _ s
  case push => exact exec_push_untraced _ s
  case pop => exact exec_pop_untraced _ s
  case syscall => exact exec_syscall_untraced _ s
  case jmp | jz | jn | jc | jv | jzn => exact jumpIf_untraced _ _ s
  case halt => rfl
  all_goals exact exec_aluPass_untraced (by trivial) s

/-- Retiring writes the tracer and does not read it. -/
theorem finish_untraced (w : Word) (o : Answer) : finish w (Answer.untraced o) = Answer.untraced (finish w o) := by
  cases o with
  | next t =>
    by_cases hrun : t.status = .running
    · rw [finish_of_running w hrun]
      exact finish_of_running (t := t.untraced) w hrun
    · rw [finish_of_not_running w hrun]
      exact finish_of_not_running (t := t.untraced) w hrun
  | fault r => rfl
  | refused r => rfl

/-- Settles O16: fetch, the instruction and retiring each commute with taking the tracer out. -/
theorem tracerDoesNotChangeTheRun : Obligations.TracerDoesNotChangeTheRun := by
  intro s
  by_cases hrun : s.status = .running
  · cases hf : fetchWord s with
    | error c =>
      rw [step_of_fetch_error hrun hf, step_of_fetch_error (s := s.untraced) hrun hf]
      exact raise_untraced c s
    | ok w =>
      have hfetch : Fetches s w := fetches_of_fetchWord hrun hf
      cases hd : decode s.cfg.enc w with
      | ok i =>
        rw [step_of_decoded hfetch hd, step_of_decoded (s := s.untraced) hfetch hd, ← finish_untraced,
          ← exec_untraced]
        rfl
      | error e =>
        obtain ⟨ty, c⟩ := e
        rw [step_of_rejected hfetch hd, step_of_rejected (s := s.untraced) hfetch hd]
        exact raise_untraced _ s.advancePc
  · rw [step_of_not_running hrun, step_of_not_running (s := s.untraced) hrun]
    rfl

/-! ### The fatal causes of an instruction -/

theorem raise_eq_fatal {c c' : Cause} {s left : State} (h : raise c s = .fault (.fatal c' left)) : c' = c := by
  cases h
  rfl

theorem aluPass_not_fatal {i : Instr} (hi : isAluPass i) {s left : State} {c : Cause} :
    exec i s ≠ .fault (.fatal c left) := by
  obtain ⟨op, input, rd, hexec, -⟩ := exec_of_isAluPass hi
  rw [hexec, aluWriteback]
  split <;> nofun

theorem emitWords_fatal {n a : Nat} {s left : State} {c : Cause}
    (h : emitWords n a s = .fault (.fatal c left)) : c.kind = .addressOutOfRange := by
  by_cases hfits : n = 0 ∨ a + n ≤ s.cfg.memSize
  · rw [emitWords_of_fits hfits] at h
    cases h
  · obtain ⟨bs, hbs⟩ := emitWords_past_end (a := a) (s := s) (fun hn => hfits (.inl hn)) (by omega)
    rw [raise_eq_fatal (hbs.symm.trans h)]
    rfl

theorem storeBytes_fatal {l : List Byte} {a : Nat} {s left : State} {c : Cause}
    (h : storeBytes l a s = .fault (.fatal c left)) : c.kind = .addressOutOfRange := by
  by_cases hfits : l = [] ∨ a + l.length ≤ s.cfg.memSize
  · obtain ⟨m, hm, -, -⟩ := storeBytes_of_fits hfits
    rw [hm] at h
    cases h
  · obtain ⟨hl, hlen⟩ := not_or.1 hfits
    obtain ⟨m, hm, -, -⟩ := storeBytes_past_end hl (Nat.lt_of_not_le hlen)
    rw [raise_eq_fatal (hm.symm.trans h)]
    rfl

/-- SS holds an address that memory does not have, and the access to it is the cause. No valid map allows it
(log 12). -/
def StackLeavesMemory (s : State) (c : Cause) : Prop :=
  ∃ a : Word, s.inSS a = true ∧ s.cfg.memSize ≤ a.toNat ∧ c = .addressOutOfRange a.toNat

/-- The fatal causes an instruction can stop the run with (60_exceptions.md R202, R204, R206). -/
def MayRaise (s : State) : Instr → Cause → Prop
  | .ldr _ rm, c | .str _ rm, c => c = .addressOutOfRange (s.reg rm).toNat
  | .push _, c => c = .stackOverflow (s.reg spReg - 1) ∨ StackLeavesMemory s c
  | .pop _, c => StackLeavesMemory s c
  | .syscall n, c => c.kind = .addressOutOfRange ∨ c.kind = .syscallOverflow ∨ c = .unknownSyscall n
  | _, _ => False

section
variable {s left : State} {c : Cause} {rd rm : Reg}

theorem exec_ldr_fatal (h : exec (.ldr rd rm) s = .fault (.fatal c left)) : MayRaise s (.ldr rd rm) c := by
  rcases lt_or_ge (s.reg rm).toNat s.cfg.memSize with hlt | hle
  · rw [exec_ldr_of_lt rd hlt] at h
    cases h
  · exact raise_eq_fatal ((exec_ldr_of_le rd hle).symm.trans h)

theorem exec_str_fatal (h : exec (.str rd rm) s = .fault (.fatal c left)) : MayRaise s (.str rd rm) c := by
  rcases lt_or_ge (s.reg rm).toNat s.cfg.memSize with hlt | hle
  · rw [exec_str_of_lt rd hlt] at h
    cases h
  · exact raise_eq_fatal ((exec_str_of_le rd hle).symm.trans h)

theorem exec_push_fatal (h : exec (.push rd) s = .fault (.fatal c left)) : MayRaise s (.push rd) c := by
  cases hss : s.inSS (pushPointer s).result with
  | false =>
    rw [exec_push_of_not_inSS rd hss, pushPointer_result_eq_sub_one] at h
    exact .inl (raise_eq_fatal h)
  | true =>
    rcases lt_or_ge (pushPointer s).result.toNat s.cfg.memSize with hlt | hle
    · rw [exec_push_of_inSS rd hss hlt] at h
      cases h
    · exact .inr ⟨_, hss, hle, raise_eq_fatal ((exec_push_of_le rd hss hle).symm.trans h)⟩

theorem exec_pop_fatal (h : exec (.pop rd) s = .fault (.fatal c left)) : MayRaise s (.pop rd) c := by
  cases hss : s.inSS (s.reg spReg) with
  | false =>
    rw [exec_pop_of_not_inSS rd hss] at h
    cases h
  | true =>
    rcases lt_or_ge (s.reg spReg).toNat s.cfg.memSize with hlt | hle
    · rw [exec_pop_of_inSS rd hss hlt] at h
      cases h
    · exact ⟨_, hss, hle, raise_eq_fatal ((exec_pop_of_le rd hss hle).symm.trans h)⟩

theorem consoleInCall_fatal (h : consoleInCall s = .fault (.fatal c left)) :
    c.kind = .addressOutOfRange ∨ c.kind = .syscallOverflow := by
  unfold consoleInCall at h
  dsimp only at h
  split at h
  · rw [raise_eq_fatal h]
    exact .inr rfl
  · exact .inl (storeBytes_fatal h)

theorem exec_syscall_fatal {n : Imm} (h : exec (.syscall n) s = .fault (.fatal c left)) :
    MayRaise s (.syscall n) c := by
  replace h : execSyscall n s = _ := h
  unfold execSyscall at h
  split at h
  · cases h
  · split at h
    · exact .inl (emitWords_fatal h)
    · split at h
      · rcases consoleInCall_fatal h with hk | hk
        · exact .inl hk
        · exact .inr (.inl hk)
      · exact .inr (.inr (raise_eq_fatal h))

theorem exec_fatal_cause {i : Instr} (h : exec i s = .fault (.fatal c left)) : MayRaise s i c := by
  cases i
  case ldr => exact exec_ldr_fatal h
  case str => exact exec_str_fatal h
  case push => exact exec_push_fatal h
  case pop => exact exec_pop_fatal h
  case syscall => exact exec_syscall_fatal h
  case jmp | jz | jn | jc | jv | jzn | halt => cases h
  all_goals exact aluPass_not_fatal (by trivial) h

/-- No instruction raises a kind of the boot. -/
theorem MayRaise.not_boot_kind {i : Instr} (h : MayRaise s i c) :
    c.kind ≠ .segmentMisconfig ∧ c.kind ≠ .loaderParse := by
  cases i
  case ldr | str =>
    obtain rfl : c = _ := h
    exact ⟨nofun, nofun⟩
  case push =>
    obtain rfl | ⟨a, -, -, rfl⟩ := h
    · exact ⟨nofun, nofun⟩
    · exact ⟨nofun, nofun⟩
  case pop =>
    obtain ⟨a, -, -, rfl⟩ := h
    exact ⟨nofun, nofun⟩
  case syscall =>
    obtain hk | hk | rfl := h
    · rw [hk]
      exact ⟨nofun, nofun⟩
    · rw [hk]
      exact ⟨nofun, nofun⟩
    · exact ⟨nofun, nofun⟩
  all_goals exact h.elim

end

/-! ### The fatal causes of a step -/

/-- A fatal stop of a step: the fetch fails, the word is rejected, or the instruction stops the run. -/
theorem step_fatal_cause {s left : State} {c : Cause} (h : step s = .fault (.fatal c left)) :
    fetchWord s = .error c ∨ c.kind = .unknownOpCode ∨
      ∃ w i, Fetches s w ∧ decode s.cfg.enc w = .ok i ∧ MayRaise s.advancePc i c := by
  obtain ⟨-, hr⟩ | ⟨hrun, ⟨c', hc', hr⟩ | ⟨w, hw, ⟨ty, code, -, hr⟩ | ⟨i, hd, hexec⟩⟩⟩ := step_fault h
  · cases hr
  · cases hr
    exact .inl hc'
  · cases hr
    exact .inr (.inl rfl)
  · exact .inr (.inr ⟨w, i, fetches_of_fetchWord hrun hw, hd, exec_fatal_cause hexec⟩)

/-- Settles O12, by the three sources of a fatal stop. -/
theorem noBootKindInAStep : Obligations.NoBootKindInAStep := by
  intro s left c h
  obtain hf | hk | ⟨w, i, -, -, hraise⟩ := step_fatal_cause h
  · obtain ⟨-, rfl⟩ | ⟨-, -, rfl⟩ := fetchWord_error hf
    · exact ⟨nofun, nofun⟩
    · exact ⟨nofun, nofun⟩
  · rw [hk]
    exact ⟨nofun, nofun⟩
  · exact hraise.not_boot_kind

/-! ### The segments lie in memory -/

theorem SegMap.last_lt_memSize {m : SegMap} {n : Nat} (h : m.wf n = true) :
    m.cs.last.toNat < n ∧ m.ss.last.toNat < n := by
  simp only [SegMap.wf, Segment.fits, Bool.and_eq_true, decide_eq_true_eq] at h
  tauto

theorem Inv.lt_memSize_of_inCS {s : State} {a : Word} (hinv : Inv s) (h : s.inCS a = true) :
    a.toNat < s.cfg.memSize := by
  obtain ⟨m, hseg⟩ := inCS_seg h
  exact ((inCS_iff hseg a).1 h).2.trans_lt (SegMap.last_lt_memSize (hinv.segValid m hseg)).1

theorem Inv.lt_memSize_of_inSS {s : State} {a : Word} (hinv : Inv s) (h : s.inSS a = true) :
    a.toNat < s.cfg.memSize := by
  obtain ⟨m, hseg⟩ := inSS_seg h
  exact ((inSS_iff hseg a).1 h).2.trans_lt (SegMap.last_lt_memSize (hinv.segValid m hseg)).2

theorem Inv.stack_in_memory {s : State} {c : Cause} (hinv : Inv s) : ¬StackLeavesMemory s c := by
  rintro ⟨a, hss, hle, -⟩
  exact absurd (hinv.lt_memSize_of_inSS hss) (Nat.not_lt.2 hle)

/-- Under the invariant the access checks of PUSH and POP cannot fail. -/
theorem MayRaise.of_addressOutOfRange {s : State} {i : Instr} {a : Nat} (hinv : Inv s)
    (h : MayRaise s i (.addressOutOfRange a)) :
    (∃ rd rm, i = .ldr rd rm) ∨ (∃ rd rm, i = .str rd rm) ∨ ∃ n, i = .syscall n := by
  cases i
  case ldr rd rm => exact .inl ⟨rd, rm, rfl⟩
  case str rd rm => exact .inr (.inl ⟨rd, rm, rfl⟩)
  case syscall n => exact .inr (.inr ⟨n, rfl⟩)
  case push =>
    obtain hc | hstack := h
    · cases hc
    · exact absurd hstack hinv.stack_in_memory
  case pop => exact absurd h hinv.stack_in_memory
  all_goals exact h.elim

/-- Settles O13: CS and SS lie in memory, so neither the fetch nor PUSH and POP can leave it. -/
theorem onlyLoadStoreSyscallLeaveMemory : Obligations.OnlyLoadStoreSyscallLeaveMemory := by
  intro s left a hinv h
  obtain hf | hk | ⟨w, i, hfetch, hd, hraise⟩ := step_fatal_cause h
  · obtain ⟨-, hc⟩ | ⟨hcs, hle, -⟩ := fetchWord_error hf
    · cases hc
    · exact absurd (hinv.lt_memSize_of_inCS hcs) (Nat.not_lt.2 hle)
  · cases hk
  · have hadvanced : Inv s.advancePc := hinv.of_eq rfl rfl rfl rfl rfl
    exact ⟨w, i, hfetch, hd, hraise.of_addressOutOfRange hadvanced⟩

/-! ### The trace record -/

theorem retire_tracer_of_open {s : State} {x : Tracer} (w : Word) (hx : s.tracer = some x) (hopen : x.isOpen = true) :
    (s.retire w).tracer = some ⟨x.log ++ [.record (recordOf w s)], true⟩ := by
  simp [State.retire, hx, Tracer.put, hopen, State.traceRecord, recordOf]

/-- Settles O17: the instruction leaves the tracer, and retiring offers it the record; HALT does neither. -/
theorem oneRecordPerRetiredInstruction : Obligations.OneRecordPerRetiredInstruction := by
  intro s t x h hx hopen
  obtain ⟨i, u, -, -, -, hctl, hrun, rfl⟩ | ⟨-, rfl⟩ := step_next_cases h
  · have htracer := retire_tracer_of_open (s.slot (s.reg pcReg).toNat) (hctl.tracer.trans hx) hopen
    refine ⟨fun _ => ⟨_, htracer, congrArg (· + 1) hctl.retired, rfl, rfl, rfl, rfl, rfl, rfl, rfl⟩, fun hhalt => ?_⟩
    cases hrun.symm.trans hhalt
  · exact ⟨nofun, fun _ => rfl⟩

end Sys2Proof.Machine
end

section
/-! PROOFS. Reset, configuration and loading (70_reset_and_hazards.md): what init's validation accepts, what the load
port does with an image, the boot that joins them, the loader's numbers, payloads and synthesised SS, and the obligations
O52, O53 and O55 to O60. -/
namespace Sys2Proof.Machine

/-! ### The ranges init accepts -/

theorem LegalRanges.sizes_le {n : Nat} {cs ds ss es : SegRange} (h : LegalRanges n cs ds ss es) :
    cs.size + ds.size + ss.size + es.size ≤ n := by
  simp only [LegalRanges, FitsBelow, NoOverlap, ← SegRange.fits_iff, ← SegRange.apart_iff] at h
  obtain ⟨hcs, hds, hss, hes, hcd, hcss, hce, hdss, hde, hse⟩ := h
  exact disjointRangesFitInMemory n cs ds ss es hcs hds hss hes hcd hcss hce hdss hde hse

/-- R230's checks, of which the fourth follows from the others. -/
theorem rangesValid_iff (n : Nat) (cs ds ss es : SegRange) :
    rangesValid n cs ds ss es = true ↔ LegalRanges n cs ds ss es := by
  simp only [rangesValid, Bool.and_eq_true, decide_eq_true_eq, SegRange.fits_iff, SegRange.apart_iff, and_assoc]
  constructor
  · rintro ⟨hcs, hcs', hds, hds', hss, hss', hes, hes', hcd, hcss, hce, hdss, hde, hse, -⟩
    exact ⟨⟨hcs, hcs'⟩, ⟨hds, hds'⟩, ⟨hss, hss'⟩, ⟨hes, hes'⟩, hcd, hcss, hce, hdss, hde, hse⟩
  · intro h
    have hsum := h.sizes_le
    obtain ⟨⟨hcs, hcs'⟩, ⟨hds, hds'⟩, ⟨hss, hss'⟩, ⟨hes, hes'⟩, hcd, hcss, hce, hdss, hde, hse⟩ := h
    exact ⟨hcs, hcs', hds, hds', hss, hss', hes, hes', hcd, hcss, hce, hdss, hde, hse, hsum⟩

theorem validate_of_legal {n : Nat} {cs ds ss es : SegRange} (h : LegalRanges n cs ds ss es) :
    SegRequest.validate ⟨some cs, some ds, some ss, some es⟩ n =
      some ⟨cs.toSegment, ds.toSegment, ss.toSegment, es.toSegment⟩ :=
  if_pos ((rangesValid_iff n cs ds ss es).2 h)

theorem validate_some {q : SegRequest} {n : Nat} {m : SegMap} (h : q.validate n = some m) :
    ∃ cs ds ss es, q = ⟨some cs, some ds, some ss, some es⟩ ∧ LegalRanges n cs ds ss es ∧
      m = ⟨cs.toSegment, ds.toSegment, ss.toSegment, es.toSegment⟩ := by
  obtain ⟨qcs, qds, qss, qes⟩ := q
  unfold SegRequest.validate at h
  split at h
  · rename_i cs ds ss es hcs hds hss hes
    cases hcs; cases hds; cases hss; cases hes
    split at h
    · exact ⟨cs, ds, ss, es, rfl, (rangesValid_iff n cs ds ss es).1 ‹_›, by simpa using h.symm⟩
    · cases h
  · cases h

/-! ### The map as stored -/

theorem Segment.fits_iff (g : Segment) (n : Nat) :
    g.fits n = true ↔ g.start.toNat ≤ g.last.toNat ∧ g.last.toNat < n := by
  simp [Segment.fits, BitVec.le_def]

theorem Segment.apart_iff (g h : Segment) :
    g.apart h = true ↔ g.last.toNat < h.start.toNat ∨ h.last.toNat < g.start.toNat := by
  simp [Segment.apart, BitVec.lt_def]

section
variable {n : Nat} (hn : n ≤ 4294967296) {g h : SegRange} (hg : FitsBelow n g) (hh : FitsBelow n h)
include hn hg

/-- A range that fits below 2^32 is stored as given. -/
theorem toSegment_toNat : g.toSegment.start.toNat = g.start ∧ g.toSegment.last.toNat = g.last := by
  obtain ⟨hle, hlt⟩ := hg
  constructor
  · exact Nat.mod_eq_of_lt (by omega)
  · exact Nat.mod_eq_of_lt (by omega)

theorem toSegment_fits : g.toSegment.fits n = true := by
  obtain ⟨hstart, hlast⟩ := toSegment_toNat hn hg
  rw [Segment.fits_iff, hstart, hlast]
  exact hg

include hh in
theorem toSegment_apart (hgh : NoOverlap g h) : g.toSegment.apart h.toSegment = true := by
  obtain ⟨hgstart, hglast⟩ := toSegment_toNat hn hg
  obtain ⟨hhstart, hhlast⟩ := toSegment_toNat hn hh
  rw [Segment.apart_iff, hgstart, hglast, hhstart, hhlast]
  exact hgh

end

/-- A validated map has the invariants of a stored one (20_memory.md R48). -/
theorem validate_wf {q : SegRequest} {n : Nat} {m : SegMap} (hn : n ≤ 4294967296) (h : q.validate n = some m) :
    m.wf n = true := by
  obtain ⟨cs, ds, ss, es, -, ⟨hcs, hds, hss, hes, hcd, hcss, hce, hdss, hde, hse⟩, rfl⟩ := validate_some h
  simp [SegMap.wf, toSegment_fits hn hcs, toSegment_fits hn hds, toSegment_fits hn hss, toSegment_fits hn hes,
    toSegment_apart hn hcs hds hcd, toSegment_apart hn hcs hss hcss, toSegment_apart hn hcs hes hce,
    toSegment_apart hn hds hss hdss, toSegment_apart hn hds hes hde, toSegment_apart hn hss hes hse]

/-! ### init -/

theorem initPort_of_some {q : SegRequest} {s : State} {m : SegMap} (hst : s.status = .unconfigured)
    (h : q.validate s.cfg.memSize = some m) : initPort q s = .next (s.configured m) := by
  simp [initPort, hst, h]

theorem initPort_of_none {q : SegRequest} {s : State} (hst : s.status = .unconfigured)
    (h : q.validate s.cfg.memSize = none) :
    initPort q s = .fault (.fatal .segmentMisconfig (s.stopped .segmentMisconfig)) := by
  simp [initPort, hst, h, raise, Cause.kind]

theorem initPort_next {q : SegRequest} {s t : State} (h : initPort q s = .next t) :
    ∃ m, q.validate s.cfg.memSize = some m ∧ t = s.configured m := by
  unfold initPort at h
  split at h
  · split at h
    · exact ⟨_, ‹_›, by simpa using h.symm⟩
    · cases h
  · cases h

theorem sameRegsBut_configured (s : State) (m : SegMap) : SameRegsBut [spReg, pcReg] s (s.configured m) := by
  intro r hr
  obtain ⟨hsp, hpc⟩ : r ≠ spReg ∧ r ≠ pcReg := by simpa using hr
  rw [configured_reg, if_neg hpc, if_neg hsp]

/-- Settles O52: the ranges pass the checks, and fit the words that hold them. -/
theorem initOnAValidMap : Obligations.InitOnAValidMap := by
  intro s cs ds ss es hst hn h
  have hinit := initPort_of_some hst (validate_of_legal h)
  obtain ⟨hcs, hds, hss, hes, -⟩ := h
  obtain ⟨hcs_start, hcs_last⟩ := toSegment_toNat hn hcs
  obtain ⟨hds_start, hds_last⟩ := toSegment_toNat hn hds
  obtain ⟨hss_start, hss_last⟩ := toSegment_toNat hn hss
  obtain ⟨hes_start, hes_last⟩ := toSegment_toNat hn hes
  refine ⟨_, _, hinit, rfl, Prod.ext hcs_start hcs_last, Prod.ext hds_start hds_last, Prod.ext hss_start hss_last,
    Prod.ext hes_start hes_last, ?_, ?_, rfl, sameRegsBut_configured s _, rfl, fun _ => rfl, rfl, rfl, rfl,
    ⟨rfl, rfl, rfl⟩⟩
  · rw [configured_reg, if_neg (by decide), if_pos rfl, toNat_add_word, hss_last]
    rfl
  · rw [configured_reg, if_pos rfl, hcs_start]

/-- Settles O53: a map that validation accepts has its four keys and breaks no check. -/
theorem initRejectsABadMap : Obligations.InitRejectsABadMap := by
  intro s q hst hbad
  have hnone : q.validate s.cfg.memSize = none := by
    by_contra hsome
    obtain ⟨m, hm⟩ := Option.ne_none_iff_exists'.1 hsome
    obtain ⟨cs, ds, ss, es, rfl, hlegal, -⟩ := validate_some hm
    obtain h | h | h | h | ⟨_, _, _, _, ⟨⟩, hnot | hsum⟩ := hbad
    · cases h
    · cases h
    · cases h
    · cases h
    · exact hnot hlegal
    · exact absurd hlegal.sizes_le (Nat.not_le.2 hsum)
  refine ⟨_, initPort_of_none hst hnone, rfl, sameRegsBut_of_regs_eq [] rfl, rfl, fun _ => rfl, rfl, rfl, rfl, ?_,
    step_of_not_running (by simp), ⟨rfl, rfl, rfl⟩⟩
  intro x hx hopen
  simp [hx, Tracer.fail_of_open _ hopen]

/-! ### The load port -/

theorem loadable_iff (s : State) : s.loadable = true ↔ s.status = .running ∧ s.retired = 0 := by simp [State.loadable]

section
variable {s : State} {m : SegMap} (image : List Word) (hrun : s.status = .running) (h0 : s.retired = 0)
  (hseg : s.seg = some m)
include hrun h0 hseg

theorem loadInstructions_of_loadable : loadInstructions image s = loadImage image m.cs s := by
  simp [loadInstructions, (loadable_iff s).2 ⟨hrun, h0⟩, hseg]

theorem loadData_of_loadable : loadData image s = loadImage image m.ds s := by
  simp [loadData, (loadable_iff s).2 ⟨hrun, h0⟩, hseg]

end

theorem loadInstructions_next {image : List Word} {s t : State} (h : loadInstructions image s = .next t) :
    ∃ m, s.seg = some m ∧ loadImage image m.cs s = .next t := by
  unfold loadInstructions at h
  split at h
  · exact ⟨_, ‹_›, h⟩
  · cases h

theorem loadData_next {image : List Word} {s t : State} (h : loadData image s = .next t) :
    ∃ m, s.seg = some m ∧ loadImage image m.ds s = .next t := by
  unfold loadData at h
  split at h
  · exact ⟨_, ‹_›, h⟩
  · cases h

theorem loadImage_of_lt {image : List Word} {g : Segment} (s : State) (h : g.size < image.length) :
    loadImage image g s = .fault (.fatal .segmentMisconfig (s.stopped .segmentMisconfig)) := if_pos h

theorem loadImage_next {image : List Word} {g : Segment} {s t : State} (h : loadImage image g s = .next t) :
    image.length ≤ g.size ∧ storeWords image g.start.toNat s = .next t := by
  unfold loadImage at h
  split at h
  · cases h
  · exact ⟨Nat.not_lt.1 ‹_›, h⟩

theorem loads_of_fits {image : List Word} {g : Segment} {s : State}
    (hfit : g.start.toNat + image.length ≤ g.last.toNat + 1) (hlast : g.last.toNat < s.cfg.memSize) :
    Loads (loadImage image g s) image g s := by
  have hsize : image.length ≤ g.size := by
    unfold Segment.size
    omega
  obtain ⟨t, hstore, hmem, hslot⟩ := storeWords_of_le image g.start.toNat s (by omega)
  refine ⟨t, (loadImage_of_le hsize).trans hstore, ?_, ?_, ?_⟩
  · intro k v hk
    have hlt : k < image.length := (List.getElem?_eq_some_iff.1 hk).1
    rw [hslot, if_pos (by omega), Nat.add_sub_cancel_left, hk, Option.getD_some]
  · intro a ha
    rw [hslot, if_neg (by omega)]
  · rw [hmem]
    exact frame_of_mem s t.mem

/-- Settles O60: an open port loads the image into the segment of the map. -/
theorem loadPortPlacesAFittingImage : Obligations.LoadPortPlacesAFittingImage := by
  intro s m image hrun h0 hseg
  rw [loadInstructions_of_loadable image hrun h0 hseg, loadData_of_loadable image hrun h0 hseg]
  exact ⟨loads_of_fits, loads_of_fits⟩

theorem size_lt_of_oversize {g : Segment} {n : Nat} (h : g.last.toNat - g.start.toNat + 1 < n) : g.size < n := by
  unfold Segment.size
  omega

/-- Settles O56: the check of the length comes before any store. -/
theorem oversizeImageIsRefused : Obligations.OversizeImageIsRefused := by
  intro s m image hrun h0 hseg
  rw [loadInstructions_of_loadable image hrun h0 hseg, loadData_of_loadable image hrun h0 hseg]
  exact ⟨fun h => ⟨_, loadImage_of_lt s (size_lt_of_oversize h), fun _ => rfl⟩,
    fun h => ⟨_, loadImage_of_lt s (size_lt_of_oversize h), fun _ => rfl⟩⟩

/-! ### The boot -/

theorem Answer.andThen_next {o : Answer} {f : State → Answer} {t : State} (h : o.andThen f = .next t) :
    ∃ u, o = .next u ∧ f u = .next t := by
  cases o with
  | next u => exact ⟨u, rfl, h⟩
  | fault r => cases h
  | refused r => cases h

theorem Inv.memSize_le {s : State} (h : Inv s) : s.cfg.memSize ≤ 4294967296 := by
  have hcfg := h.cfg
  simp only [Config.wf, Bool.and_eq_true, decide_eq_true_eq] at hcfg
  exact hcfg.1.2

theorem Inv.configured {s : State} {m : SegMap} (hm : m.wf s.cfg.memSize = true) (h : Inv s) : Inv (s.configured m) :=
  { h with
    segValid := by
      intro m' hm'
      cases hm'
      exact hm
    hasSeg := fun _ => rfl }

theorem storeWords_inv {l : List Word} {a : Nat} {s t : State} (hinv : Inv s) (h : storeWords l a s = .next t) :
    Inv t := by
  induction l generalizing a s with
  | nil =>
    cases h
    exact hinv
  | cons w rest ih =>
    unfold storeWords at h
    split at h
    · rename_i s1 hwrite
      obtain ⟨hlt, rfl⟩ := memWrite_some hwrite
      exact ih (hinv.setSlot w hlt) h
    · cases h

theorem loadImage_inv {image : List Word} {g : Segment} {s t : State} (hinv : Inv s)
    (h : loadImage image g s = .next t) : Inv t := storeWords_inv hinv (loadImage_next h).2

/-- A load that completes stays in its segment. -/
theorem loadImage_in_segment {image : List Word} {g : Segment} {s t : State} {n : Nat} (hg : g.fits n = true)
    (h : loadImage image g s = .next t) : g.start.toNat + image.length ≤ g.last.toNat + 1 := by
  have hsize := (loadImage_next h).1
  unfold Segment.size at hsize
  have hle := ((Segment.fits_iff g n).1 hg).1
  omega

/-- What a load that completes has done, when the segment lies in memory. -/
theorem loadImage_loads {image : List Word} {g : Segment} {s t : State} (hg : g.fits s.cfg.memSize = true)
    (h : loadImage image g s = .next t) : Loads (.next t) image g s :=
  h ▸ loads_of_fits (loadImage_in_segment hg h) ((Segment.fits_iff g _).1 hg).2

theorem SegMap.code_data_of_wf {m : SegMap} {n : Nat} (h : m.wf n = true) :
    m.cs.fits n = true ∧ m.ds.fits n = true ∧ m.cs.apart m.ds = true := by
  simp only [SegMap.wf, Bool.and_eq_true] at h
  tauto

/-- Settles O55: init stores a valid map, each load stays in its segment, and CS and DS share no slot. -/
theorem bootPlacesTheImages : Obligations.BootPlacesTheImages := by
  intro s q text data t hinv h
  obtain ⟨s₁, hinit, hloads⟩ := Answer.andThen_next h
  obtain ⟨s₂, htext, hdata⟩ := Answer.andThen_next hloads
  obtain ⟨m, hvalid, rfl⟩ := initPort_next hinit
  have hwf : m.wf s.cfg.memSize = true := validate_wf hinv.memSize_le hvalid
  obtain ⟨hcs, hds, hapart⟩ := SegMap.code_data_of_wf hwf
  obtain ⟨m₁, hseg₁, htext⟩ := loadInstructions_next htext
  cases hseg₁
  obtain ⟨_, ⟨⟩, htext_placed, htext_rest, htext_regs, -, htext_ctl, -⟩ :=
    loadImage_loads (s := s.configured m) hcs htext
  obtain ⟨m₂, hseg₂, hdata⟩ := loadData_next hdata
  cases htext_ctl.seg.symm.trans hseg₂
  have hds₂ : m.ds.fits s₂.cfg.memSize = true := htext_ctl.cfg ▸ hds
  obtain ⟨_, ⟨⟩, hdata_placed, hdata_rest, hdata_regs, -, hdata_ctl, -⟩ := loadImage_loads hds₂ hdata
  have hregs (r : Reg) : t.reg r = (s.configured m).reg r := (hdata_regs r (by simp)).trans (htext_regs r (by simp))
  have hinv_t : Inv t := loadImage_inv (loadImage_inv (hinv.configured hwf) htext) hdata
  refine ⟨hinv_t, hdata_ctl.status.trans htext_ctl.status, m, hdata_ctl.seg.trans htext_ctl.seg, ?_, ?_, ?_,
    hdata_placed, ?_⟩
  · rw [hregs, configured_reg, if_pos rfl]
  · rw [hregs, configured_reg, if_neg (by decide), if_pos rfl]
  · intro k v hk
    have hlt : k < text.length := (List.getElem?_eq_some_iff.1 hk).1
    have htext_in := loadImage_in_segment hcs htext
    have hdata_in := loadImage_in_segment hds hdata
    rw [Segment.apart_iff] at hapart
    rw [hdata_rest _ (by omega)]
    exact htext_placed k v hk
  · intro a ha_text ha_data
    exact (hdata_rest a ha_data).trans (htext_rest a ha_text)

/-! ### Decimal numbers -/

theorem digitsFrom_of_digits {l : List Byte} (acc : Nat) (h : ∀ b ∈ l, isDigit b) :
    digitsFrom acc l = some (l.foldl (fun n b => n * 10 + (b.toNat - 48)) acc) := by
  induction l generalizing acc with
  | nil => rfl
  | cons b rest ih =>
    have hb : 48 ≤ b.toNat ∧ b.toNat ≤ 57 := h b (by simp)
    exact (if_pos hb).trans (ih _ fun c hc => h c (by simp [hc]))

theorem digitsFrom_of_not_digit {l : List Byte} (acc : Nat) (h : ∃ b ∈ l, ¬isDigit b) : digitsFrom acc l = none := by
  induction l generalizing acc with
  | nil => simp at h
  | cons b rest ih =>
    by_cases hb : isDigit b
    · have hrest : ∃ c ∈ rest, ¬isDigit c := by simpa [hb] using h
      exact (if_pos hb).trans (ih _ hrest)
    · exact if_neg hb

theorem parseDecimal_of_digits {l : List Byte} (hne : l ≠ []) (h : ∀ b ∈ l, isDigit b) :
    parseDecimal l = if decimalValue l < 4294967296 then some (decimalValue l) else none := by
  obtain ⟨b, rest, rfl⟩ := List.exists_cons_of_ne_nil hne
  simp only [parseDecimal, digitsFrom_of_digits 0 h]
  rfl

theorem parseDecimal_of_not_digit {l : List Byte} (h : ∃ b ∈ l, ¬isDigit b) : parseDecimal l = none := by
  cases l with
  | nil => rfl
  | cons b rest => simp only [parseDecimal, digitsFrom_of_not_digit 0 h]

/-- Settles O57, by whether the line is empty and whether it holds digits only. -/
theorem decimalLineIsItsValue : Obligations.DecimalLineIsItsValue := by
  intro l
  constructor
  · rintro ⟨hne, hdigits, hlt⟩
    rw [parseDecimal_of_digits hne hdigits, if_pos hlt]
  · rintro (rfl | hother | hle)
    · rfl
    · exact parseDecimal_of_not_digit hother
    · by_cases hdigits : ∀ b ∈ l, isDigit b
      · have hne : l ≠ [] := by
          rintro rfl
          simp [decimalValue] at hle
        rw [parseDecimal_of_digits hne hdigits, if_neg (Nat.not_lt.2 hle)]
      · exact parseDecimal_of_not_digit (by simpa using hdigits)

/-! ### Payloads -/

/-- What an accepted payload does, by the loader's state. -/
theorem payload_some {mode : LoaderMode} {l : List Byte} {g h : LoaderImage} (hp : payload mode l g = some h) :
    (mode = .ds ∧ ∃ r, h = { g with ds := some r }) ∨ (mode = .es ∧ ∃ r, h = { g with es := some r }) ∨
      (mode = .ts ∧ ∃ r, h = { g with cs := some r }) ∨
      (mode = .dd ∧ ∃ n, parseDecimal l = some n ∧ h = { g with data := g.data ++ [BitVec.ofNat 32 n] }) ∨
      (mode = .td ∧ ∃ n, parseDecimal l = some n ∧ h = { g with text := g.text ++ [BitVec.ofNat 32 n] }) := by
  cases mode
  case start => cases hp
  all_goals
    obtain ⟨x, hx, rfl⟩ := Option.map_eq_some_iff.1 hp
    simp [hx]

/-- Settles O58: the image a payload leaves differs from the one before in the section of its state. -/
theorem payloadKeepsOtherSections : Obligations.PayloadKeepsOtherSections := by
  intro mode l g h
  refine ⟨rfl, fun hp => ?_⟩
  obtain ⟨rfl, r, rfl⟩ | ⟨rfl, r, rfl⟩ | ⟨rfl, r, rfl⟩ | ⟨rfl, n, hn, rfl⟩ | ⟨rfl, n, hn, rfl⟩ := payload_some hp
  case inl | inr.inl | inr.inr.inl => simp
  case inr.inr.inr.inl | inr.inr.inr.inr => simp [hn]

/-! ### The synthesised SS -/

/-- The ranges the loader has parsed. -/
def LoaderImage.parsed (img : LoaderImage) : List SegRange := [img.cs, img.ds, img.es].filterMap id

theorem mem_parsed (img : LoaderImage) (x : SegRange) :
    x ∈ img.parsed ↔ img.cs = some x ∨ img.ds = some x ∨ img.es = some x := by
  simp [LoaderImage.parsed, eq_comm (a := some x)]

/-- The larger of the end found so far and that of a range. -/
def laterEnd (m : Option Nat) (g : SegRange) : Option Nat :=
  some (match m with | some x => max x g.last | none => g.last)

theorem maxEnd_eq_foldl (img : LoaderImage) : img.maxEnd = img.parsed.foldl laterEnd none := rfl

/-- e is the end of a range of the list, and none has a larger one. -/
def IsLargestEnd (l : List SegRange) (e : Nat) : Prop := (∃ y ∈ l, y.last = e) ∧ ∀ x ∈ l, x.last ≤ e

theorem IsLargestEnd.cons_of_le {l : List SegRange} {g y : SegRange} {e : Nat} (hle : g.last ≤ y.last)
    (h : IsLargestEnd (y :: l) e) : IsLargestEnd (g :: y :: l) e := by
  obtain ⟨⟨z, hz, hlast⟩, hmax⟩ := h
  exact ⟨⟨z, List.mem_cons_of_mem _ hz, hlast⟩, List.forall_mem_cons.2 ⟨hle.trans (hmax y (by simp)), hmax⟩⟩

theorem IsLargestEnd.insert_of_le {l : List SegRange} {g y : SegRange} {e : Nat} (hle : y.last ≤ g.last)
    (h : IsLargestEnd (g :: l) e) : IsLargestEnd (g :: y :: l) e := by
  obtain ⟨⟨z, hz, hlast⟩, hmax⟩ := h
  obtain ⟨hg, hl⟩ := List.forall_mem_cons.1 hmax
  refine ⟨⟨z, ?_, hlast⟩, by simpa using ⟨hg, hle.trans hg, hl⟩⟩
  rcases List.mem_cons.1 hz with rfl | hz
  · simp
  · simp [hz]

theorem foldl_laterEnd (l : List SegRange) (g : SegRange) :
    ∃ e, l.foldl laterEnd (some g.last) = some e ∧ IsLargestEnd (g :: l) e := by
  induction l generalizing g with
  | nil => exact ⟨g.last, rfl, by simp [IsLargestEnd]⟩
  | cons y rest ih =>
    rw [List.foldl_cons, laterEnd]
    rcases le_total g.last y.last with hle | hle
    · obtain ⟨e, he, hlargest⟩ := ih y
      exact ⟨e, by simpa only [max_eq_right hle] using he, hlargest.cons_of_le hle⟩
    · obtain ⟨e, he, hlargest⟩ := ih g
      exact ⟨e, by simpa only [max_eq_left hle] using he, hlargest.insert_of_le hle⟩

theorem maxEnd_of_mem {img : LoaderImage} {x : SegRange} (hx : x ∈ img.parsed) :
    ∃ e, img.maxEnd = some e ∧ IsLargestEnd img.parsed e := by
  rw [maxEnd_eq_foldl]
  cases hl : img.parsed with
  | nil => simp [hl] at hx
  | cons g rest => exact foldl_laterEnd rest g

/-- Settles O59: SS starts one past the largest end when there is one. -/
theorem loaderSynthesisesTheStack : Obligations.LoaderSynthesisesTheStack := by
  intro g n
  refine ⟨rfl, rfl, rfl, ?_, ?_⟩
  · intro hcs hds hes
    simp [LoaderImage.request, LoaderImage.maxEnd, hcs, hds, hes]
  · intro x hx
    rw [← mem_parsed] at hx
    obtain ⟨e, he, ⟨y, hy, rfl⟩, hmax⟩ := maxEnd_of_mem hx
    exact ⟨⟨y.last + 1, n - 1⟩, by simp [LoaderImage.request, he], Nat.lt_succ_of_le (hmax x hx), rfl, y,
      (mem_parsed g y).1 hy, rfl⟩

end Sys2Proof.Machine
end

section
/-! PROOFS. The stop of a large shift under SHIFT_POLICY = fault (92_eei_decisions.md D5): the obligation O31. -/
namespace Sys2Proof.Machine

theorem aluStuck_of_large {op : AluOp} {p : ShiftPolicy} {b : Word} (hop : op.moves = true) (hp : p = .fault)
    (hb : 32 ≤ b.toNat) : aluStuck p op b = true := by
  simp [aluStuck, hop, hp, hb]

/-- A stuck ALU pass answers the fault with its operand B, the amount. -/
theorem aluWriteback_of_stuck {op : AluOp} {x : AluInput} (rd : Reg) {s : State}
    (h : aluStuck s.cfg.shiftPolicy op x.b = true) : aluWriteback op x rd s = .fault (.shiftAmountOpen x.b) :=
  if_pos h

theorem exec_of_large_shift {i : Instr} (op : AluOp) {a b : Word} {rd : Reg} {s : State}
    (hi : exec i s = aluWriteback op ⟨a, b⟩ rd s) (hop : op.moves = true) (hp : s.cfg.shiftPolicy = .fault)
    (hb : 32 ≤ b.toNat) : exec i s = .fault (.shiftAmountOpen b) :=
  hi.trans (aluWriteback_of_stuck rd (aluStuck_of_large hop hp hb))

/-- Settles O31: each of the eight is one ALU pass that moves bits, and the immediate is widened without change. -/
theorem largeShiftIsStuckUnderFaultPolicy : Obligations.LargeShiftIsStuckUnderFaultPolicy := by
  intro s rd rm rn imm hp
  constructor
  · intro hreg
    exact ⟨exec_of_large_shift .shl rfl rfl hp hreg, exec_of_large_shift .shr rfl rfl hp hreg,
      exec_of_large_shift .rtl rfl rfl hp hreg, exec_of_large_shift .rtr rfl rfl hp hreg⟩
  · intro himm
    have hwide : 32 ≤ (imm.setWidth 32 : Word).toNat := (imm_setWidth_toNat imm).symm ▸ himm
    exact ⟨exec_of_large_shift .shl rfl rfl hp hwide, exec_of_large_shift .shr rfl rfl hp hwide,
      exec_of_large_shift .rtl rfl rfl hp hwide, exec_of_large_shift .rtr rfl rfl hp hwide⟩

end Sys2Proof.Machine
end
